-- ==== Sys2Proof/Word.lean ====
section
/-! DEFINITION. The word types of the machine and their plainest arithmetic. -/

namespace Sys2Proof

/-- A byte: a memory cell, a V register, a timer, an `NN` immediate. -/
abbrev Byte := BitVec 8

/-- A 16-bit word: `I`, `pc`, a stack slot, an instruction word (10_state.md R14, R15, R18; 30_encoding.md R55). -/
abbrev Word := BitVec 16

/-- A 12-bit address operand `NNN` (30_encoding.md R56). -/
abbrev Addr := BitVec 12

/-- A 4-bit field of an instruction word (30_encoding.md R56). -/
abbrev Nibble := BitVec 4

/-- The number of a V register: the `X` and `Y` fields index the register file directly (30_encoding.md R58). -/
abbrev Reg := Fin 16

/-- V0, the offset register of `JP V0, addr` (10_state.md R11). -/
abbrev V0 : Reg := 0

/-- VF, the register that doubles as the flag (10_state.md R13). -/
abbrev VF : Reg := 15

end Sys2Proof
end

