-- ==== Sys2Proof/Syntax.lean ====
section
/-! DEFINITION. The instructions: one constructor per row of 30_encoding.md R61, in the order of the rows. A field
that a row ignores (R62) is kept as an argument named `ign`, which no meaning reads as an operand: with it `encode`
gives back the very word that was fetched, which a fault records (60_exceptions.md R142; log entry 8). -/

namespace Sys2Proof

inductive Instr where
  /-- Row 1, `00E0`: `CLS`. `ign` is `ir[11:8]`, ignored. -/
  | cls (ign : Nibble)
  /-- Row 2, `00EE`: `RET`. `ign` is `ir[11:8]`, ignored. -/
  | ret (ign : Nibble)
  /-- Row 3, `0NNN`: `SYS addr`, every other word of group 0. -/
  | sysAddr (nnn : Addr)
  /-- Row 4, `1NNN`: `JP addr`. -/
  | jpAddr (nnn : Addr)
  /-- Row 5, `2NNN`: `CALL addr`. -/
  | callAddr (nnn : Addr)
  /-- Row 6, `3XNN`: `SE Vx, byte`. -/
  | seVxByte (x : Reg) (nn : Byte)
  /-- Row 7, `4XNN`: `SNE Vx, byte`. -/
  | sneVxByte (x : Reg) (nn : Byte)
  /-- Row 8, `5XY0`: `SE Vx, Vy`. `ign` is `ir[3:0]`, ignored. -/
  | seVxVy (x y : Reg) (ign : Nibble)
  /-- Row 9, `6XNN`: `LD Vx, byte`. -/
  | ldVxByte (x : Reg) (nn : Byte)
  /-- Row 10, `7XNN`: `ADD Vx, byte`. -/
  | addVxByte (x : Reg) (nn : Byte)
  /-- Row 11, `8XY0`: `LD Vx, Vy`. -/
  | ldVxVy (x y : Reg)
  /-- Row 12, `8XY1`: `OR Vx, Vy`. -/
  | orVxVy (x y : Reg)
  /-- Row 13, `8XY2`: `AND Vx, Vy`. -/
  | andVxVy (x y : Reg)
  /-- Row 14, `8XY3`: `XOR Vx, Vy`. -/
  | xorVxVy (x y : Reg)
  /-- Row 15, `8XY4`: `ADD Vx, Vy`. -/
  | addVxVy (x y : Reg)
  /-- Row 16, `8XY5`: `SUB Vx, Vy`. -/
  | subVxVy (x y : Reg)
  /-- Row 17, `8XY6`: `SHR Vx`. `ign` is `ir[7:4]`, ignored. -/
  | shrVx (x : Reg) (ign : Nibble)
  /-- Row 18, `8XY7`: `SUBN Vx, Vy`. -/
  | subnVxVy (x y : Reg)
  /-- Row 19, `8XYE`: `SHL Vx`. `ign` is `ir[7:4]`, ignored. -/
  | shlVx (x : Reg) (ign : Nibble)
  /-- Row 20, `9XY0`: `SNE Vx, Vy`. `ign` is `ir[3:0]`, ignored. -/
  | sneVxVy (x y : Reg) (ign : Nibble)
  /-- Row 21, `ANNN`: `LD I, addr`. -/
  | ldIAddr (nnn : Addr)
  /-- Row 22, `BNNN`: `JP V0, addr`. -/
  | jpV0Addr (nnn : Addr)
  /-- Row 23, `CXNN`: `RND Vx, byte`. -/
  | rndVxByte (x : Reg) (nn : Byte)
  /-- Row 24, `DXYN`: `DRW Vx, Vy, nibble`. -/
  | drwVxVyNibble (x y : Reg) (n : Nibble)
  /-- Row 25, `EX9E`: `SKP Vx`. -/
  | skpVx (x : Reg)
  /-- Row 26, `EXA1`: `SKNP Vx`. -/
  | sknpVx (x : Reg)
  /-- Row 27, `FX07`: `LD Vx, DT`. -/
  | ldVxDt (x : Reg)
  /-- Row 28, `FX0A`: `LD Vx, K`. -/
  | ldVxK (x : Reg)
  /-- Row 29, `FX15`: `LD DT, Vx`. -/
  | ldDtVx (x : Reg)
  /-- Row 30, `FX18`: `LD ST, Vx`. -/
  | ldStVx (x : Reg)
  /-- Row 31, `FX1E`: `ADD I, Vx`. -/
  | addIVx (x : Reg)
  /-- Row 32, `FX29`: `LD F, Vx`. -/
  | ldFVx (x : Reg)
  /-- Row 33, `FX33`: `LD B, Vx`. -/
  | ldBVx (x : Reg)
  /-- Row 34, `FX55`: `LD [I], Vx`. `x` is a COUNT: V0 to V(x-1) are stored (43_block_transfer.md R113). -/
  | ldMemIVx (x : Reg)
  /-- Row 35, `FX65`: `LD Vx, [I]`. `x` is a COUNT: V0 to V(x-1) are loaded (43_block_transfer.md R114). -/
  | ldVxMemI (x : Reg)
  deriving DecidableEq, Repr

end Sys2Proof
end

