-- ==== Sys2Proof/WellFormed.lean ====
section
/-! DEFINITION. Which instructions are well-formed. The operand types already bound every field; the one check left is
the priority of 30_encoding.md R61: row 3 (`SYS`) is the REST of group 0, after rows 1 and 2. -/

namespace Sys2Proof

/-- A group-0 address operand that is neither `XE0` (row 1, `CLS`) nor `XEE` (row 2, `RET`). -/
def isSysAddr (nnn : Addr) : Bool :=
  let low := nnn.extractLsb' 0 8
  low != 0xE0#8 && low != 0xEE#8

def Instr.wellFormed : Instr → Bool
  | .cls _ => true
  | .ret _ => true
  | .sysAddr nnn => isSysAddr nnn
  | .jpAddr _ => true
  | .callAddr _ => true
  | .seVxByte _ _ => true
  | .sneVxByte _ _ => true
  | .seVxVy _ _ _ => true
  | .ldVxByte _ _ => true
  | .addVxByte _ _ => true
  | .ldVxVy _ _ => true
  | .orVxVy _ _ => true
  | .andVxVy _ _ => true
  | .xorVxVy _ _ => true
  | .addVxVy _ _ => true
  | .subVxVy _ _ => true
  | .shrVx _ _ => true
  | .subnVxVy _ _ => true
  | .shlVx _ _ => true
  | .sneVxVy _ _ _ => true
  | .ldIAddr _ => true
  | .jpV0Addr _ => true
  | .rndVxByte _ _ => true
  | .drwVxVyNibble _ _ _ => true
  | .skpVx _ => true
  | .sknpVx _ => true
  | .ldVxDt _ => true
  | .ldVxK _ => true
  | .ldDtVx _ => true
  | .ldStVx _ => true
  | .addIVx _ => true
  | .ldFVx _ => true
  | .ldBVx _ => true
  | .ldMemIVx _ => true
  | .ldVxMemI _ => true

end Sys2Proof
end

