-- ==== Sys2Proof/Decode.lean ====
section
/-! DEFINITION. Decoding and encoding (30_encoding.md R55 to R66): the fields, the dispatch on the primary opcode and
the secondary field, the encoder written from the same rows, and the table word the host asks about. -/

namespace Sys2Proof

/-- Why bytes do not give an instruction. Both are names for a reader; the machine turns `unrecognized` into the
report of R64 and never meets `truncated`, since a fetch always delivers two bytes. -/
inductive DecodeError where
  /-- Fewer than two bytes were given. -/
  | truncated
  /-- The word is in none of the 35 rows (30_encoding.md R63). -/
  | unrecognized (ir : Word)
  deriving DecidableEq, Repr

/-! ## Fields (R56) -/

/-- `P`, the primary opcode, `ir[15:12]`. -/
def fieldP (ir : Word) : Nibble := ir.extractLsb' 12 4

/-- `ir[11:8]`, the bits of `X`. -/
def fieldX (ir : Word) : Nibble := ir.extractLsb' 8 4

/-- `ir[7:4]`, the bits of `Y`. -/
def fieldY (ir : Word) : Nibble := ir.extractLsb' 4 4

/-- `N`, `ir[3:0]`. -/
def fieldN (ir : Word) : Nibble := ir.extractLsb' 0 4

/-- `NN`, `ir[7:0]`. -/
def fieldNN (ir : Word) : Byte := ir.extractLsb' 0 8

/-- `NNN`, `ir[11:0]`. -/
def fieldNNN (ir : Word) : Addr := ir.extractLsb' 0 12

/-- The register a 4-bit field names: "`X` and `Y` index the register file directly" (R58). -/
def regOf (f : Nibble) : Reg := ⟨f.toNat, f.isLt⟩

/-- The 4-bit field that names a register. -/
def regBits (r : Reg) : Nibble := BitVec.ofNat 4 r.val

/-! ## Decode (R59 to R61) -/

/-- Group 0: the secondary field is the low byte (R60); rows 1, 2, 3. -/
def decodeGroup0 (ir : Word) : Instr :=
  if fieldNN ir = 0xE0#8 then .cls (fieldX ir)
  else if fieldNN ir = 0xEE#8 then .ret (fieldX ir)
  else .sysAddr (fieldNNN ir)

/-- Group 8: the secondary field is the low nibble (R60); rows 11 to 19. -/
def decodeGroup8 (ir : Word) : Except DecodeError Instr :=
  let x := regOf (fieldX ir)
  let y := regOf (fieldY ir)
  match (fieldN ir).toNat with
  | 0x0 => .ok (.ldVxVy x y)
  | 0x1 => .ok (.orVxVy x y)
  | 0x2 => .ok (.andVxVy x y)
  | 0x3 => .ok (.xorVxVy x y)
  | 0x4 => .ok (.addVxVy x y)
  | 0x5 => .ok (.subVxVy x y)
  | 0x6 => .ok (.shrVx x (fieldY ir))
  | 0x7 => .ok (.subnVxVy x y)
  | 0xE => .ok (.shlVx x (fieldY ir))
  | _ => .error (.unrecognized ir)

/-- Group E: the secondary field is the low byte (R60); rows 25, 26. -/
def decodeGroupE (ir : Word) : Except DecodeError Instr :=
  let x := regOf (fieldX ir)
  if fieldNN ir = 0x9E#8 then .ok (.skpVx x)
  else if fieldNN ir = 0xA1#8 then .ok (.sknpVx x)
  else .error (.unrecognized ir)

/-- Group F: the secondary field is the low byte (R60); rows 27 to 35. -/
def decodeGroupF (ir : Word) : Except DecodeError Instr :=
  let x := regOf (fieldX ir)
  if fieldNN ir = 0x07#8 then .ok (.ldVxDt x)
  else if fieldNN ir = 0x0A#8 then .ok (.ldVxK x)
  else if fieldNN ir = 0x15#8 then .ok (.ldDtVx x)
  else if fieldNN ir = 0x18#8 then .ok (.ldStVx x)
  else if fieldNN ir = 0x1E#8 then .ok (.addIVx x)
  else if fieldNN ir = 0x29#8 then .ok (.ldFVx x)
  else if fieldNN ir = 0x33#8 then .ok (.ldBVx x)
  else if fieldNN ir = 0x55#8 then .ok (.ldMemIVx x)
  else if fieldNN ir = 0x65#8 then .ok (.ldVxMemI x)
  else .error (.unrecognized ir)

/-- `Decode(ir)` (R61), on the primary opcode first (R59). -/
def decodeWord (ir : Word) : Except DecodeError Instr :=
  let x := regOf (fieldX ir)
  let y := regOf (fieldY ir)
  let nn := fieldNN ir
  let nnn := fieldNNN ir
  match (fieldP ir).toNat with
  | 0x0 => .ok (decodeGroup0 ir)
  | 0x1 => .ok (.jpAddr nnn)
  | 0x2 => .ok (.callAddr nnn)
  | 0x3 => .ok (.seVxByte x nn)
  | 0x4 => .ok (.sneVxByte x nn)
  | 0x5 => .ok (.seVxVy x y (fieldN ir))
  | 0x6 => .ok (.ldVxByte x nn)
  | 0x7 => .ok (.addVxByte x nn)
  | 0x8 => decodeGroup8 ir
  | 0x9 => .ok (.sneVxVy x y (fieldN ir))
  | 0xA => .ok (.ldIAddr nnn)
  | 0xB => .ok (.jpV0Addr nnn)
  | 0xC => .ok (.rndVxByte x nn)
  | 0xD => .ok (.drwVxVyNibble x y (fieldN ir))
  | 0xE => decodeGroupE ir
  | 0xF => decodeGroupF ir
  | _ => .error (.unrecognized ir)

/-- An instruction word from its two bytes, the first at the lower address (20_memory.md R39). -/
def wordOfBytes (hi lo : Byte) : Word := hi ++ lo

/-- Decode the instruction at the head of a byte list, and the bytes after it: total on any bytes (R55: every
instruction is two bytes). -/
def decodeBytes : List Byte → Except DecodeError (Instr × List Byte)
  | hi :: lo :: rest =>
    match decodeWord (wordOfBytes hi lo) with
    | .ok i => .ok (i, rest)
    | .error e => .error e
  | [_] => .error .truncated
  | [] => .error .truncated

/-! ## Encode (the word column of R61; formats of R57) -/

/-- Format A: `P ++ NNN`. -/
def wordA (p : Nibble) (nnn : Addr) : Word := p ++ nnn

/-- Formats I, S and Z: `P ++ X ++ NN`. -/
def wordI (p x : Nibble) (nn : Byte) : Word := p ++ x ++ nn

/-- Formats R and D: `P ++ X ++ Y ++ N`. -/
def wordR (p x y n : Nibble) : Word := p ++ x ++ y ++ n

/-- The word of an instruction. -/
def encode : Instr → Word
  | .cls ign => wordI 0x0 ign 0xE0
  | .ret ign => wordI 0x0 ign 0xEE
  | .sysAddr nnn => wordA 0x0 nnn
  | .jpAddr nnn => wordA 0x1 nnn
  | .callAddr nnn => wordA 0x2 nnn
  | .seVxByte x nn => wordI 0x3 (regBits x) nn
  | .sneVxByte x nn => wordI 0x4 (regBits x) nn
  | .seVxVy x y ign => wordR 0x5 (regBits x) (regBits y) ign
  | .ldVxByte x nn => wordI 0x6 (regBits x) nn
  | .addVxByte x nn => wordI 0x7 (regBits x) nn
  | .ldVxVy x y => wordR 0x8 (regBits x) (regBits y) 0x0
  | .orVxVy x y => wordR 0x8 (regBits x) (regBits y) 0x1
  | .andVxVy x y => wordR 0x8 (regBits x) (regBits y) 0x2
  | .xorVxVy x y => wordR 0x8 (regBits x) (regBits y) 0x3
  | .addVxVy x y => wordR 0x8 (regBits x) (regBits y) 0x4
  | .subVxVy x y => wordR 0x8 (regBits x) (regBits y) 0x5
  | .shrVx x ign => wordR 0x8 (regBits x) ign 0x6
  | .subnVxVy x y => wordR 0x8 (regBits x) (regBits y) 0x7
  | .shlVx x ign => wordR 0x8 (regBits x) ign 0xE
  | .sneVxVy x y ign => wordR 0x9 (regBits x) (regBits y) ign
  | .ldIAddr nnn => wordA 0xA nnn
  | .jpV0Addr nnn => wordA 0xB nnn
  | .rndVxByte x nn => wordI 0xC (regBits x) nn
  | .drwVxVyNibble x y n => wordR 0xD (regBits x) (regBits y) n
  | .skpVx x => wordI 0xE (regBits x) 0x9E
  | .sknpVx x => wordI 0xE (regBits x) 0xA1
  | .ldVxDt x => wordI 0xF (regBits x) 0x07
  | .ldVxK x => wordI 0xF (regBits x) 0x0A
  | .ldDtVx x => wordI 0xF (regBits x) 0x15
  | .ldStVx x => wordI 0xF (regBits x) 0x18
  | .addIVx x => wordI 0xF (regBits x) 0x1E
  | .ldFVx x => wordI 0xF (regBits x) 0x29
  | .ldBVx x => wordI 0xF (regBits x) 0x33
  | .ldMemIVx x => wordI 0xF (regBits x) 0x55
  | .ldVxMemI x => wordI 0xF (regBits x) 0x65

/-- The two bytes of a word as memory holds them, the high byte at the lower address (20_memory.md R39). -/
def bytesOfWord (w : Word) : List Byte := [w.extractLsb' 8 8, w.extractLsb' 0 8]

/-! ## The opcode table's words -/

/-- The instruction word of a table row: the low `nbits` bits of `w`, every bit above them 0. -/
def tableWord (nbits w : Nat) : Word := BitVec.ofNat 16 (w % 2 ^ nbits)

/-- The instruction the decoder reads from an instruction whose bits are `w`, numbered as
`spec/opcode_table.json` numbers them: one 16-bit word, bit 0 its least significant bit. -/
def decodeTableWord (nbits w : Nat) : Option Instr :=
  match decodeBytes (bytesOfWord (tableWord nbits w)) with
  | .ok (i, _) => some i
  | .error _ => none

end Sys2Proof
end

