-- ==== Sys2Proof/Machine/Flags.lean ====
section
/-! DEFINITION. The flag values VF takes (10_state.md R13; 41_register_ops.md R97 to R101) and the results that go
with them: exact arithmetic first, then the narrowing to 8 bits (41_register_ops.md R90). -/

namespace Sys2Proof.Machine

/-- A flag as VF holds it: 0x00 or 0x01 (10_state.md R13). -/
def flagByte (b : Bool) : Byte := if b then 1 else 0

/-- `s mod 256` (41_register_ops.md R90 item 2). -/
def wrapByte (s : Nat) : Byte := BitVec.ofNat 8 s

/-- Carry of `a + b`: 1 if the sum is over 255 (R97). -/
def carryFlag (a b : Byte) : Byte := flagByte (decide (a.toNat + b.toNat > 255))

/-- Not-borrow of `a - b`: 1 if `a >= b` (R98, R100). -/
def notBorrowFlag (a b : Byte) : Byte := flagByte (decide (a.toNat ≥ b.toNat))

/-- `(a - b) mod 256`: `a - b`, plus 256 when that is negative (R90 item 2). -/
def diffByte (a b : Byte) : Byte := wrapByte (if a.toNat ≥ b.toNat then a.toNat - b.toNat else a.toNat + 256 - b.toNat)

/-- The bit `SHR` shifts out: bit 0 of the unshifted value (R99). -/
def shiftOutRight (a : Byte) : Byte := flagByte (a.getLsbD 0)

/-- The bit `SHL` shifts out: bit 7 of the unshifted value (R101). -/
def shiftOutLeft (a : Byte) : Byte := flagByte (a.getLsbD 7)

end Sys2Proof.Machine
end

