-- ==== Sys2Proof/Config.lean ====
section
/-! DEFINITION. What is fixed for the machine: the parameters of 00_scope.md R6, and the two free values of R7 (the
byte a `STEP` draws and the choice among several pressed keys), which have no body and so no value a proof could use. -/

namespace Sys2Proof

/-- `MEM_SIZE` (00_scope.md R6). -/
def Config.memSize : Nat := 4096

/-- `FONT_BASE` (00_scope.md R6). -/
def Config.fontBase : Nat := 0x050

/-- `GLYPH_BYTES` (00_scope.md R6). -/
def Config.glyphBytes : Nat := 5

/-- `FONT_LEN` (00_scope.md R6). -/
def Config.fontLen : Nat := 80

/-- `PROG_BASE`, also the reset value of `pc` (00_scope.md R6). -/
def Config.progBase : Nat := 0x200

/-- `PROG_MAX` (00_scope.md R6). -/
def Config.progMax : Nat := 3584

/-- `STACK_DEPTH` (00_scope.md R6). -/
def Config.stackDepth : Nat := 16

/-- The highest address an instruction can be fetched from, whose second byte is the last of memory
(20_memory.md R42). -/
def Config.lastFetch : Nat := 0x0FFE

/-- FREE VALUE (log entry 2; safe). The bytes the environment draws for the `STEP`s it does not list: "a draw under
no law" (44_random.md R119). No body: a claim holds for every sequence of draws. -/
opaque Config.rndByte : Nat → Byte

/-- FREE VALUE (log entry 3; safe). Which key `LD Vx, K` prefers when several are pressed (47_input.md R134,
`KEY_PICK`). No body; `Machine.keyPick` makes a pressed key of it, and every function allowed for `KEY_PICK` arises. -/
opaque Config.keyChoice : Word → Fin 16

end Sys2Proof
end

