-- ==== Sys2Proof/Machine/State.lean ====
section
/-! DEFINITION. The state of the block (10_state.md), the environment's side of its interface, the reasons a step could
stop, and the state after `RESET` (70_reset_and_hazards.md R170, R171). Plain data throughout. -/

namespace Sys2Proof.Machine

/-- Memory as (address, byte) pairs: addresses strictly rising, no pair equal to the reset contents
(`Memory.wf` in Machine/Memory.lean; log entry 6). An unlisted address reads as its reset contents. -/
abbrev Memory := List Host.Cell

/-- `fb[y][x]`: 32 rows of 64 one-bit pixels, row index first (10_state.md R22). -/
abbrev FrameBuffer := Vector (Vector Bool 64) 32

/-- The fault latch, the block's one status register (10_state.md R24). -/
structure FaultLatch where
  /-- 0: the core runs. 1: the core is halted. -/
  valid : Bool
  /-- 1 to 5, the codes of 60_exceptions.md R141; 0 when `valid` is 0. -/
  code : BitVec 3
  /-- `pc0` of the step that faulted. -/
  pc : Word
  /-- The instruction word of that step; 0 for `FetchRange`. -/
  ir : Word
  /-- The offending value. -/
  info : Word
  deriving DecidableEq, Repr

/-- All fields 0: the core is running. -/
def FaultLatch.clear : FaultLatch := ⟨false, 0, 0, 0, 0⟩

/-- The faults of 60_exceptions.md R141. -/
inductive FaultCode where
  | fetchRange
  | dataRange
  | stackOverflow
  | stackUnderflow
  | keyIndexRange
  deriving DecidableEq, Repr

/-- The non-fatal report of an unrecognized word: the word and the address it was fetched from
(60_exceptions.md R150). -/
structure Report where
  word : Word
  addr : Word
  deriving DecidableEq, Repr

/-- What `LOAD` answers (20_memory.md R52, R53). -/
inductive LoadResult where
  | ok
  | programTooLarge
  | sourceUnavailable
  deriving DecidableEq, Repr

/-- The six transactions the environment issues (00_scope.md R5). -/
inductive Transaction where
  | reset
  /-- `none`: the environment could not supply all of the bytes (20_memory.md R53). -/
  | load (bytes : Option (List Byte))
  /-- One `STEP` with its `rnd` argument (44_random.md R118). -/
  | step (rnd : Byte)
  | tick
  /-- `KEYS(k)`: bit `j` of `k` is key `j` (60_exceptions.md R159). -/
  | keys (k : Word)
  | present
  deriving DecidableEq, Repr

/-- What the latest transaction returned: the `result` column of 00_scope.md R5. The `fault` a `STEP` returns is the
fault latch itself and is not repeated here. -/
inductive Result where
  /-- No transaction yet, or one that returns nothing (`RESET`, `KEYS`). -/
  | nothing
  | loaded (r : LoadResult)
  /-- A `STEP`, with its report if one was made (60_exceptions.md R150). -/
  | stepped (diag : Option Report)
  /-- A `TICK`, with its one-shot tone signal (60_exceptions.md R156). -/
  | ticked (tone : Bool)
  /-- A `PRESENT`: the frame and the redraw flag it read (60_exceptions.md R160). -/
  | presented (frame : FrameBuffer) (flag : Bool)
  deriving DecidableEq, Repr

/-- The environment's side of the interface: the MODEL's own fields, not state of the block (log entries 1, 2, 9).
No instruction reads any of them but `RND`, which reads `rnd`. -/
structure Port where
  /-- The transactions the environment issues next, oldest first. Where it is empty, the next is a `STEP`. -/
  pending : List Transaction
  /-- The `rnd` argument of the `STEP` in progress. -/
  rnd : Byte
  /-- How many bytes were drawn for `STEP`s that `pending` did not list. -/
  draws : Nat
  /-- What the latest transaction returned. -/
  result : Result
  deriving DecidableEq, Repr

/-- The machine: the block's state (10_state.md R10 to R27), and `port`, the environment's side. -/
structure State where
  /-- `mem[0..4095]` (20_memory.md R35). -/
  mem : Memory
  /-- `V[0..15]` (10_state.md R10). -/
  v : Vector Byte 16
  /-- The index register `I` (10_state.md R14). -/
  i : Word
  /-- The program counter (10_state.md R15); `pc0` throughout an instruction's meaning (log entry 12). -/
  pc : Word
  /-- `stack[0..15]` (10_state.md R18). -/
  stack : Vector Word 16
  /-- The stack pointer, 0 to 16 inclusive (10_state.md R19; log entry 7). -/
  sp : Fin 17
  /-- The delay timer (10_state.md R20). -/
  dt : Byte
  /-- The sound timer (10_state.md R20). -/
  st : Byte
  /-- The keypad latch: bit `j` is `key[j]` (10_state.md R21). -/
  keys : Word
  /-- The frame buffer (10_state.md R22). -/
  fb : FrameBuffer
  /-- The redraw flag (10_state.md R23). -/
  redraw : Bool
  /-- The fault latch (10_state.md R24). -/
  fault : FaultLatch
  /-- The environment's side of the interface. -/
  port : Port
  deriving DecidableEq, Repr

/-- Faults of the MODEL. There are none: every fault the spec names is taken as 60_exceptions.md R142 says, in a next
state with the fault latch set, and a halted core's `STEP` is a next state too (R143). That is safe: no step of the
model stops where the block goes on (log entry 5). -/
inductive Fault where
  deriving DecidableEq, Repr

/-- Refusals of the MODEL. -/
inductive Refusal where
  /-- For an arm of `exec` whose instruction has no meaning yet; safe (the machine stops). No arm is left so. -/
  | notModelled (mnemonic : String)
  deriving DecidableEq, Repr

/-- What a meaning answers. -/
abbrev Answer := Host.Outcome State Fault Refusal

/-- The frame buffer with every pixel off. -/
def FrameBuffer.clear : FrameBuffer := Vector.replicate 32 (Vector.replicate 64 false)

/-- The port before any transaction (log entries 1, 2, 9: DESIGN CHOICE). -/
def Port.idle : Port := ⟨[], 0, 0, .nothing⟩

/-- The state after `RESET` (70_reset_and_hazards.md R171): memory lists nothing, so that it reads as the reset
contents everywhere; `pc` at 0x200; everything else 0. -/
def State.reset : State where
  mem := []
  v := Vector.replicate 16 0
  i := 0
  pc := 0x200
  stack := Vector.replicate 16 0
  sp := 0
  dt := 0
  st := 0
  keys := 0
  fb := FrameBuffer.clear
  redraw := false
  fault := FaultLatch.clear
  port := Port.idle

end Sys2Proof.Machine
end

