-- ==== Sys2Proof/Machine/Ops.lean ====
section
/-! DEFINITION. The named operations over registers, memory, the call stack and the frame buffer; taking a fault
(60_exceptions.md R142) and the report (R150), each once. There is no return from a fault: the only way out of a halted
core is `RESET` (R152), `State.resetBlock` below. -/

namespace Sys2Proof.Machine

/-! ## One field at a time -/

def State.setMem (s : State) (m : Memory) : State := { s with mem := m }
def State.setRegs (s : State) (v : Vector Byte 16) : State := { s with v := v }
def State.setI (s : State) (w : Word) : State := { s with i := w }
def State.setPc (s : State) (w : Word) : State := { s with pc := w }
def State.setStack (s : State) (k : Vector Word 16) : State := { s with stack := k }
def State.setSp (s : State) (n : Fin 17) : State := { s with sp := n }
def State.setDt (s : State) (b : Byte) : State := { s with dt := b }
def State.setSt (s : State) (b : Byte) : State := { s with st := b }
def State.setKeys (s : State) (k : Word) : State := { s with keys := k }
def State.setFb (s : State) (f : FrameBuffer) : State := { s with fb := f }
def State.setRedraw (s : State) (b : Bool) : State := { s with redraw := b }
def State.setFault (s : State) (f : FaultLatch) : State := { s with fault := f }
def State.setPort (s : State) (p : Port) : State := { s with port := p }

/-- The state with another result returned to the environment. -/
def State.answer (s : State) (r : Result) : State := s.setPort { s.port with result := r }

/-! ## V registers (10_state.md R10) -/

/-- `V[x]`. -/
def State.getV (s : State) (x : Reg) : Byte := s.v.get x

/-- `V[x] <- b`. -/
def State.setV (s : State) (x : Reg) (b : Byte) : State := s.setRegs (s.v.set x.val b x.isLt)

/-- The two writes of a flag-writing instruction: the result, then the flag, which survives in VF when `x` is 15
(41_register_ops.md R90 item 4). -/
def State.setVFlag (s : State) (x : Reg) (result flag : Byte) : State := (s.setV x result).setV VF flag

/-! ## The program counter (10_state.md R15, R16) -/

/-- `npc = pc0 + 2`, the address of the next instruction. -/
def State.npc (s : State) : Word := s.pc + 2

/-- `pc <- npc`: how every instruction ends whose pseudocode does not write `pc` (00_scope.md R8). -/
def State.advance (s : State) : State := s.setPc s.npc

/-- A conditional skip: `pc <- npc + 2` when the condition holds, else `pc <- npc` (10_state.md R16). -/
def State.skipIf (s : State) (c : Bool) : State := if c then s.setPc (s.npc + 2) else s.advance

/-! ## Memory (20_memory.md R40 to R42) -/

/-- `mem[a]`. -/
def State.readByte (s : State) (a : Nat) : Byte := s.mem.read a

/-- `Fetch(pc)` (R42): the two bytes at `pc`, big-endian; `none` where it raises `FetchRange`. -/
def State.fetch (s : State) : Option Word :=
  if s.pc.toNat > Config.lastFetch then none
  else some (wordOfBytes (s.readByte s.pc.toNat) (s.readByte (s.pc.toNat + 1)))

/-! ## The call stack (10_state.md R18, R19) -/

/-- Push: the free slot is written, then `sp` rises; `none` when all 16 slots are in use. -/
def State.push (s : State) (w : Word) : Option State :=
  if h : s.sp.val < 16 then some ((s.setStack (s.stack.set s.sp.val w h)).setSp ⟨s.sp.val + 1, by omega⟩) else none

/-- Pop: `sp` falls, and the slot it then indexes is read; `none` when the stack is empty. The slot keeps its value. -/
def State.pop (s : State) : Option (Word × State) :=
  if h : 0 < s.sp.val then some (s.stack[s.sp.val - 1]'(by omega), s.setSp ⟨s.sp.val - 1, by omega⟩) else none

/-! ## Taking a fault (60_exceptions.md R141, R142) -/

/-- The code numbers of R141. -/
def FaultCode.number : FaultCode → BitVec 3
  | .fetchRange => 1
  | .dataRange => 2
  | .stackOverflow => 3
  | .stackUnderflow => 4
  | .keyIndexRange => 5

/-- `raise F(info)`: every piece of state keeps the value it had before the step, `pc` included, and the latch is set.
`ir` is the word of the step, 0 for `FetchRange`. -/
def State.raise (s : State) (c : FaultCode) (ir info : Word) : State :=
  s.setFault ⟨true, c.number, s.pc, ir, info⟩

/-- `RESET` (70_reset_and_hazards.md R170): the block's state after it does not depend on the state before. What the
environment still has to issue, and how far its random source has come, are the environment's and stay (log entry
13). -/
def State.resetBlock (s : State) : State := State.reset.setPort { s.port with result := .nothing }

/-! ## The report (60_exceptions.md R150) -/

/-- `report Unrecognized(ir, pc0)`, then `pc <- npc`. -/
def State.report (s : State) (ir : Word) : State := (s.answer (.stepped (some ⟨ir, s.pc⟩))).advance

/-! ## The frame buffer (10_state.md R22) -/

/-- `fb[y][x]`. -/
def FrameBuffer.pixel (f : FrameBuffer) (y : Fin 32) (x : Fin 64) : Bool := (f.get y).get x

/-- `fb[y][x] <- b`. -/
def FrameBuffer.setPixel (f : FrameBuffer) (y : Fin 32) (x : Fin 64) (b : Bool) : FrameBuffer :=
  f.set y.val ((f.get y).set x.val b x.isLt) y.isLt

end Sys2Proof.Machine
end

