-- ==== Sys2Proof/Machine/Operands.lean ====
section
/-! DEFINITION. The operand forms: zero-extended immediates (30_encoding.md R58), the one addressing mode "base `I` plus
a small offset" with its range check (20_memory.md R47, 43_block_transfer.md R116), the glyph address, the decimal
digits, the key index and `KEY_PICK`, and the draw coordinates. -/

namespace Sys2Proof.Machine

/-- `zext_16(NNN)`. -/
def zextAddr (nnn : Addr) : Word := nnn.setWidth 16

/-- `zext_16` of a register. -/
def zextByte (b : Byte) : Word := b.setWidth 16

/-- The effective address `I + k`, an unbounded integer (20_memory.md R47). -/
def State.dataAddr (s : State) (k : Nat) : Nat := s.i.toNat + k

/-- The lowest of `I`, ..., `I + count - 1` that is 4096 or more, if any: what the instruction raises `DataRange` with
(43_block_transfer.md R116). -/
def State.badDataAddr (s : State) (count : Nat) : Option Nat :=
  ((List.range count).map s.dataAddr).find? fun a => decide (Config.memSize ≤ a)

/-- `count` bytes from `I` up, once their addresses are checked. -/
def State.dataBytes (s : State) (count : Nat) : List Byte := s.mem.readBytes s.i.toNat count

/-- Bytes stored from `I` up, once their addresses are checked. -/
def State.storeBytes (s : State) (bs : List Byte) : State := s.setMem (s.mem.writeBytes s.i.toNat bs)

/-- `V0`, ..., `V(count-1)` (43_block_transfer.md R113). -/
def State.lowRegs (s : State) (count : Nat) : List Byte := s.v.toList.take count

/-- `V[k] <- bs[k]` for each byte of the list; the higher registers keep their values (43_block_transfer.md R114). -/
def State.loadRegs (s : State) (bs : List Byte) : State :=
  s.setRegs (Vector.ofFn fun k : Fin 16 => bs.getD k.val (s.getV k))

/-- `0x050 + 5 * bits[3:0] of VX` (42_index_ops.md R107). -/
def glyphAddr (b : Byte) : Word := BitVec.ofNat 16 (Config.fontBase + Config.glyphBytes * (b.toNat % 16))

/-- Hundreds, tens, units (42_index_ops.md R108). -/
def decimalDigits (b : Byte) : List Byte :=
  [BitVec.ofNat 8 (b.toNat / 100), BitVec.ofNat 8 (b.toNat / 10 % 10), BitVec.ofNat 8 (b.toNat % 10)]

/-- `key[j]` (10_state.md R21). -/
def State.key (s : State) (j : Nat) : Bool := s.keys.getLsbD j

/-- The lowest pressed key of a keypad value. -/
def lowestKey (m : Word) : Fin 16 := ((List.finRange 16).find? fun j => m.getLsbD j.val).getD 0

/-- `KEY_PICK(m)` (47_input.md R134): the pressed key where exactly one is pressed; otherwise the free choice of
`Config.keyChoice` where that key is pressed, and some pressed key where it is not. Every function from the non-zero
keypad values to a pressed key arises so (log entry 3). -/
def keyPick (m : Word) : Fin 16 :=
  let low := lowestKey m
  if m = BitVec.twoPow 16 low.val then low
  else if m.getLsbD (Config.keyChoice m).val then Config.keyChoice m else low

/-- The column `(x0 + c) mod 64` (45_display.md R120). -/
def drawColumn (vx : Byte) (c : Nat) : Fin 64 := Fin.ofNat 64 (vx.toNat % 64 + c)

/-- The row `(y0 + r) mod 32` (45_display.md R120). -/
def drawLine (vy : Byte) (r : Nat) : Fin 32 := Fin.ofNat 32 (vy.toNat % 32 + r)

end Sys2Proof.Machine
end

