-- ==== Sys2Proof/Machine/BlockTransfer.lean ====
section
/-! DEFINITION. Register block transfer (43_block_transfer.md R113 to R116). `x` is the field itself, a count: VX is
excluded, and `I` is not changed (R115). -/

namespace Sys2Proof.Machine

/-- `LD [I], Vx` (R113). -/
def execLdMemIVx (x : Reg) (s : State) : Answer :=
  match s.badDataAddr x.val with
  | some a => .next (s.raise .dataRange (encode (.ldMemIVx x)) (BitVec.ofNat 16 a))
  | none => .next (s.storeBytes (s.lowRegs x.val)).advance

/-- `LD Vx, [I]` (R114). -/
def execLdVxMemI (x : Reg) (s : State) : Answer :=
  match s.badDataAddr x.val with
  | some a => .next (s.raise .dataRange (encode (.ldVxMemI x)) (BitVec.ofNat 16 a))
  | none => .next (s.loadRegs (s.dataBytes x.val)).advance

end Sys2Proof.Machine
end

