-- ==== Sys2Proof/Machine/ControlFlow.lean ====
section
/-! DEFINITION. Control flow (40_control_flow.md R75 to R84). -/

namespace Sys2Proof.Machine

/-- `SYS addr` (R76): no handler; the word is reported and `pc` is past it. -/
def execSysAddr (nnn : Addr) (s : State) : Answer := .next (s.report (encode (.sysAddr nnn)))

/-- `RET` (R77): `StackUnderflow` on an empty stack; otherwise pop and jump. -/
def execRet (ign : Nibble) (s : State) : Answer :=
  match s.pop with
  | none => .next (s.raise .stackUnderflow (encode (.ret ign)) (BitVec.ofNat 16 s.sp.val))
  | some (target, s') => .next (s'.setPc target)

/-- `JP addr` (R78). -/
def execJpAddr (nnn : Addr) (s : State) : Answer := .next (s.setPc (zextAddr nnn))

/-- `CALL addr` (R79): `StackOverflow` on a full stack; otherwise push the advanced `pc` and jump. -/
def execCallAddr (nnn : Addr) (s : State) : Answer :=
  match s.push s.npc with
  | none => .next (s.raise .stackOverflow (encode (.callAddr nnn)) (BitVec.ofNat 16 s.sp.val))
  | some s' => .next (s'.setPc (zextAddr nnn))

/-- `SE Vx, byte` (R80). -/
def execSeVxByte (x : Reg) (nn : Byte) (s : State) : Answer := .next (s.skipIf (s.getV x == nn))

/-- `SNE Vx, byte` (R81). -/
def execSneVxByte (x : Reg) (nn : Byte) (s : State) : Answer := .next (s.skipIf (s.getV x != nn))

/-- `SE Vx, Vy` (R82). -/
def execSeVxVy (x y : Reg) (s : State) : Answer := .next (s.skipIf (s.getV x == s.getV y))

/-- `SNE Vx, Vy` (R84). -/
def execSneVxVy (x y : Reg) (s : State) : Answer := .next (s.skipIf (s.getV x != s.getV y))

/-- `JP V0, addr` (R83): the sum is not reduced modulo 4096. -/
def execJpV0Addr (nnn : Addr) (s : State) : Answer := .next (s.setPc (zextAddr nnn + zextByte (s.getV V0)))

end Sys2Proof.Machine
end

