-- ==== Sys2Proof/Machine/Display.lean ====
section
/-! DEFINITION. Display instructions (45_display.md R120 to R124): the loops of R120 as they stand there. -/

namespace Sys2Proof.Machine

/-- What the loops of R120 carry: the frame buffer and `collision`. -/
abbrev Canvas := FrameBuffer × Bool

/-- The innermost lines of R120 for a 1 bit of the sprite: `collision <- 1` if the pixel was on, then the pixel is
toggled. -/
def togglePixel (y : Fin 32) (x : Fin 64) (p : Canvas) : Canvas :=
  (p.1.setPixel y x (!p.1.pixel y x), p.2 || p.1.pixel y x)

/-- The loop over columns, left to right: bit 7 is the leftmost pixel (R124); a 0 bit leaves its cell alone. -/
def drawRow (vx vy : Byte) (r : Nat) (b : Byte) (p : Canvas) : Canvas :=
  (List.range 8).foldl
    (fun p c => if b.getLsbD (7 - c) then togglePixel (drawLine vy r) (drawColumn vx c) p else p) p

/-- The loop over sprite rows, top to bottom, from row `r` on. -/
def drawRows (vx vy : Byte) : Nat → List Byte → Canvas → Canvas
  | _, [], p => p
  | r, b :: bs, p => drawRows vx vy (r + 1) bs (drawRow vx vy r b p)

/-- `DRW Vx, Vy, nibble` (R120): all sprite addresses are checked before anything changes (R121); the coordinates are
read before VF is written. -/
def execDrwVxVyNibble (x y : Reg) (n : Nibble) (s : State) : Answer :=
  match s.badDataAddr n.toNat with
  | some a => .next (s.raise .dataRange (encode (.drwVxVyNibble x y n)) (BitVec.ofNat 16 a))
  | none =>
    let p := drawRows (s.getV x) (s.getV y) 0 (s.dataBytes n.toNat) (s.fb, false)
    .next (((s.setFb p.1).setV VF (flagByte p.2)).setRedraw true).advance

/-- `CLS` (R123). -/
def execCls (s : State) : Answer := .next ((s.setFb FrameBuffer.clear).setRedraw true).advance

end Sys2Proof.Machine
end

