-- ==== Sys2Proof/Machine/IndexOps.lean ====
section
/-! DEFINITION. Index and address instructions (42_index_ops.md R105 to R108). -/

namespace Sys2Proof.Machine

/-- `LD I, addr` (R105). -/
def execLdIAddr (nnn : Addr) (s : State) : Answer := .next (s.setI (zextAddr nnn)).advance

/-- `ADD I, Vx` (R106): modulo 65536, no flag, no range check. -/
def execAddIVx (x : Reg) (s : State) : Answer := .next (s.setI (s.i + zextByte (s.getV x))).advance

/-- `LD F, Vx` (R107): the glyph address of the low nibble. -/
def execLdFVx (x : Reg) (s : State) : Answer := .next (s.setI (glyphAddr (s.getV x))).advance

/-- `LD B, Vx` (R108): all three addresses are checked before a byte is written. -/
def execLdBVx (x : Reg) (s : State) : Answer :=
  match s.badDataAddr 3 with
  | some a => .next (s.raise .dataRange (encode (.ldBVx x)) (BitVec.ofNat 16 a))
  | none => .next (s.storeBytes (decimalDigits (s.getV x))).advance

end Sys2Proof.Machine
end

