-- ==== Sys2Proof/Machine/Input.lean ====
section
/-! DEFINITION. Keypad instructions (47_input.md R132 to R135). -/

namespace Sys2Proof.Machine

/-- `KeyIndexRange(VX)`: a register that names no key (R132). -/
def raiseKeyIndex (i : Instr) (x : Reg) (s : State) : State := s.raise .keyIndexRange (encode i) (zextByte (s.getV x))

/-- `SKP Vx` (R132). -/
def execSkpVx (x : Reg) (s : State) : Answer :=
  if (s.getV x).toNat > 15 then .next (raiseKeyIndex (.skpVx x) x s)
  else .next (s.skipIf (s.key (s.getV x).toNat))

/-- `SKNP Vx` (R133). -/
def execSknpVx (x : Reg) (s : State) : Answer :=
  if (s.getV x).toNat > 15 then .next (raiseKeyIndex (.sknpVx x) x s)
  else .next (s.skipIf (!s.key (s.getV x).toNat))

/-- `LD Vx, K` (R134): with no key pressed the step changes nothing, `pc` ends equal to `pc0`, and the same instruction
is fetched again (a polling loop, R135); otherwise VX takes a pressed key's index. -/
def execLdVxK (x : Reg) (s : State) : Answer :=
  if s.keys = 0 then .next (s.setPc s.pc)
  else .next (s.setV x (BitVec.ofNat 8 (keyPick s.keys).val)).advance

end Sys2Proof.Machine
end

