-- ==== Sys2Proof/Machine/Random.lean ====
section
/-! DEFINITION. The random instruction (44_random.md R118, R119). -/

namespace Sys2Proof.Machine

/-- `RND Vx, byte` (R118): the `rnd` argument of the `STEP` in progress, masked. -/
def execRndVxByte (x : Reg) (nn : Byte) (s : State) : Answer := .next (s.setV x (s.port.rnd &&& nn)).advance

end Sys2Proof.Machine
end

