-- ==== Sys2Proof/Machine/RegisterOps.lean ====
section
/-! DEFINITION. Register and arithmetic instructions (41_register_ops.md R90 to R101). Operands are read from the state
before the instruction (00_scope.md R8). -/

namespace Sys2Proof.Machine

/-- `LD Vx, byte` (R91). -/
def execLdVxByte (x : Reg) (nn : Byte) (s : State) : Answer := .next (s.setV x nn).advance

/-- `ADD Vx, byte` (R92): 8-bit wraparound, no flag. -/
def execAddVxByte (x : Reg) (nn : Byte) (s : State) : Answer :=
  .next (s.setV x (wrapByte ((s.getV x).toNat + nn.toNat))).advance

/-- `LD Vx, Vy` (R93). -/
def execLdVxVy (x y : Reg) (s : State) : Answer := .next (s.setV x (s.getV y)).advance

/-- `OR Vx, Vy` (R94): VF is not written. -/
def execOrVxVy (x y : Reg) (s : State) : Answer := .next (s.setV x (s.getV x ||| s.getV y)).advance

/-- `AND Vx, Vy` (R95): VF is not written. -/
def execAndVxVy (x y : Reg) (s : State) : Answer := .next (s.setV x (s.getV x &&& s.getV y)).advance

/-- `XOR Vx, Vy` (R96): VF is not written. -/
def execXorVxVy (x y : Reg) (s : State) : Answer := .next (s.setV x (s.getV x ^^^ s.getV y)).advance

/-- `ADD Vx, Vy` (R97). -/
def execAddVxVy (x y : Reg) (s : State) : Answer :=
  let a := s.getV x
  let b := s.getV y
  .next (s.setVFlag x (wrapByte (a.toNat + b.toNat)) (carryFlag a b)).advance

/-- `SUB Vx, Vy` (R98): `VX - VY`. -/
def execSubVxVy (x y : Reg) (s : State) : Answer :=
  let a := s.getV x
  let b := s.getV y
  .next (s.setVFlag x (diffByte a b) (notBorrowFlag a b)).advance

/-- `SHR Vx` (R99): in place, logical. -/
def execShrVx (x : Reg) (s : State) : Answer :=
  let a := s.getV x
  .next (s.setVFlag x (wrapByte (a.toNat / 2)) (shiftOutRight a)).advance

/-- `SUBN Vx, Vy` (R100): `VY - VX`. -/
def execSubnVxVy (x y : Reg) (s : State) : Answer :=
  let a := s.getV x
  let b := s.getV y
  .next (s.setVFlag x (diffByte b a) (notBorrowFlag b a)).advance

/-- `SHL Vx` (R101): in place. -/
def execShlVx (x : Reg) (s : State) : Answer :=
  let a := s.getV x
  .next (s.setVFlag x (wrapByte (a.toNat * 2)) (shiftOutLeft a)).advance

end Sys2Proof.Machine
end

