-- ==== Sys2Proof/Machine/Timers.lean ====
section
/-! DEFINITION. Timer instructions (46_timers.md R127 to R129). The countdown is the transaction `TICK`
(Machine/Transactions.lean), not an instruction (R130). -/

namespace Sys2Proof.Machine

/-- `LD Vx, DT` (R127). -/
def execLdVxDt (x : Reg) (s : State) : Answer := .next (s.setV x s.dt).advance

/-- `LD DT, Vx` (R128). -/
def execLdDtVx (x : Reg) (s : State) : Answer := .next (s.setDt (s.getV x)).advance

/-- `LD ST, Vx` (R129). -/
def execLdStVx (x : Reg) (s : State) : Answer := .next (s.setSt (s.getV x)).advance

end Sys2Proof.Machine
end

