-- ==== Sys2Proof/Machine/Transactions.lean ====
section
/-! DEFINITION. The environment's transactions (00_scope.md R5): `LOAD`, `TICK`, `KEYS`, `PRESENT`, `RESET`, and what
`STEP` does up to the instruction it runs. -/

namespace Sys2Proof.Machine

/-- `LOAD(bytes)` (20_memory.md R52): all or nothing; `none` is a source that could not be read in full (R53). -/
def State.load (s : State) : Option (List Byte) → State
  | none => s.answer (.loaded .sourceUnavailable)
  | some bytes =>
    if bytes.length > Config.progMax then s.answer (.loaded .programTooLarge)
    else (s.setMem (s.mem.writeBytes Config.progBase bytes)).answer (.loaded .ok)

/-- A timer one tick later: floor at 0 (60_exceptions.md R155). -/
def countDown (b : Byte) : Byte := if b.toNat > 0 then b - 1 else b

/-- `TICK` (60_exceptions.md R155): `tone` is 1 on the tick that finds `st = 1` (R156). -/
def State.tick (s : State) : State :=
  ((s.setDt (countDown s.dt)).setSt (countDown s.st)).answer (.ticked (decide (s.st = 1)))

/-- `KEYS(k)` (60_exceptions.md R159). -/
def State.writeKeys (s : State) (k : Word) : State := (s.setKeys k).answer .nothing

/-- `PRESENT` (60_exceptions.md R160): the frame and the flag are read and the flag is cleared. -/
def State.present (s : State) : State := (s.setRedraw false).answer (.presented s.fb s.redraw)

/-- What a running `STEP(rnd)` starts from: its argument in `port.rnd`, no report yet (10_state.md R25). -/
def State.begin (s : State) (rnd : Byte) : State := s.setPort { s.port with rnd := rnd, result := .stepped none }

/-- `STEP(rnd)` (10_state.md R25) up to the instruction it executes: the state it ends in where there is none to
execute (a halted core, R143 of 60_exceptions.md; a fetch out of range, R144; an unrecognized word, R150), or the
instruction and the state to execute it in. -/
def State.cycle (s : State) (rnd : Byte) : State ⊕ (Instr × State) :=
  if s.fault.valid then .inl (s.answer (.stepped none))
  else
    let s := s.begin rnd
    match s.fetch with
    | none => .inl (s.raise .fetchRange 0 s.pc)
    | some ir =>
      match decodeWord ir with
      | .ok i => .inr (i, s)
      | .error _ => .inl (s.report ir)

/-- One transaction, up to the instruction a `STEP` executes. -/
def State.transact (s : State) : Transaction → State ⊕ (Instr × State)
  | .reset => .inl s.resetBlock
  | .load bytes => .inl (s.load bytes)
  | .step rnd => s.cycle rnd
  | .tick => .inl s.tick
  | .keys k => .inl (s.writeKeys k)
  | .present => .inl s.present

/-- The transaction the environment issues next: the oldest pending one; where nothing is pending, a `STEP` with a
free byte (log entries 1, 2). -/
def State.nextTransaction (s : State) : Transaction × State :=
  match s.port.pending with
  | t :: rest => (t, s.setPort { s.port with pending := rest })
  | [] => (.step (Config.rndByte s.port.draws), s.setPort { s.port with draws := s.port.draws + 1 })

/-- One frame of the reference environment (60_exceptions.md R158): a `STEP` per byte drawn (their number is
`STEPS_PER_FRAME`), then `TICK`, `PRESENT`, `KEYS`. -/
def Transaction.frame (rnds : List Byte) (k : Word) : List Transaction :=
  rnds.map .step ++ [.tick, .present, .keys k]

/-- The boot order (70_reset_and_hazards.md R173): `RESET`, then `LOAD` of the program. -/
def Transaction.boot (program : List Byte) : List Transaction := [.reset, .load (some program)]

/-- The state with an instruction word placed where the next step fetches (log entry 11): its two bytes at `pc`,
nothing pending, the core running; `pc` moves to 0x200 only where no instruction could be fetched from it. -/
def State.placeWord (s : State) (ir : Word) : State :=
  let pc := if s.pc.toNat > Config.lastFetch then BitVec.ofNat 16 Config.progBase else s.pc
  (((s.setPc pc).setMem (s.mem.writeBytes pc.toNat (bytesOfWord ir))).setFault FaultLatch.clear).setPort
    { s.port with pending := [] }

end Sys2Proof.Machine
end

