-- ==== Sys2Proof/Machine/Step.lean ====
section
/-! DEFINITION. `step`: the environment's next transaction, and the instruction a `STEP` executes. -/

namespace Sys2Proof.Machine

/-- One transaction of the block; an instruction where it is a `STEP` that has one to execute. -/
def runTransaction (t : Transaction) (s : State) : Host.Outcome State Fault Refusal :=
  match s.transact t with
  | .inl u => .next u
  | .inr (i, u) => exec i u

/-- One step of the machine: the environment's next transaction (log entry 1). -/
def step (s : State) : Host.Outcome State Fault Refusal :=
  runTransaction s.nextTransaction.1 s.nextTransaction.2

/-- `s` with the table word `w` stored where `step` fetches its next instruction. -/
def State.withFetchWord (s : State) (nbits w : Nat) : State := s.placeWord (tableWord nbits w)

end Sys2Proof.Machine
end

