-- ==== Sys2Proof/Safety.lean ====
section
/-! DEFINITION. What counts as a safe run, in the terms the statements use: the halted and the running core, the
invariant every transaction keeps, the end of a run, what an instruction may change, and the tables of
10_state.md R16, 60_exceptions.md R141 and 30_encoding.md R61 as functions. -/

namespace Sys2Proof.Machine

/-! ## Running, halted, ended -/

/-- The core runs (10_state.md R24). -/
def State.running (s : State) : Prop := s.fault.valid = false

/-- The core is halted (60_exceptions.md R143). -/
def State.halted (s : State) : Prop := s.fault.valid = true

/-- A `STEP` from here executes `i`: the core runs and the word at `pc` decodes to `i`. -/
def State.runs (s : State) (i : Instr) : Prop :=
  s.running ∧ ∃ ir, s.fetch = some ir ∧ decodeWord ir = .ok i

/-- The end of a run, condition 1 of 70_reset_and_hazards.md R183: a `JP` to itself. -/
def State.selfJump (s : State) : Prop :=
  s.running ∧ s.pc.toNat ≤ 0x0FFE ∧ wordOfBytes (s.readByte s.pc.toNat) (s.readByte (s.pc.toNat + 1)) = 0x1000 + s.pc

/-- The block's state (10_state.md R10 to R24) is the same; only the environment's side of the interface may differ. -/
def State.sameBlock (s t : State) : Prop := t = s.setPort t.port

/-! ## What an instruction may change -/

/-- What an instruction may change. Everything not named here it leaves alone. -/
structure Changes where
  regs : List Reg := []
  bytes : List Nat := []
  slots : List (Fin 16) := []
  i : Bool := false
  pc : Bool := false
  sp : Bool := false
  dt : Bool := false
  st : Bool := false
  fb : Bool := false
  redraw : Bool := false
  fault : Bool := false
  result : Bool := false

/-- From `s` to `t` nothing changes but what `c` names. No instruction writes the keypad latch (10_state.md R21) or the
environment's schedule and draws. -/
structure Frame (c : Changes) (s t : State) : Prop where
  regs : ∀ r, r ∉ c.regs → t.getV r = s.getV r
  bytes : ∀ a, a ∉ c.bytes → t.readByte a = s.readByte a
  slots : ∀ j, j ∉ c.slots → t.stack.get j = s.stack.get j
  i : c.i = false → t.i = s.i
  pc : c.pc = false → t.pc = s.pc
  sp : c.sp = false → t.sp = s.sp
  dt : c.dt = false → t.dt = s.dt
  st : c.st = false → t.st = s.st
  keys : t.keys = s.keys
  fb : c.fb = false → t.fb = s.fb
  redraw : c.redraw = false → t.redraw = s.redraw
  fault : c.fault = false → t.fault = s.fault
  pending : t.port.pending = s.port.pending
  rnd : t.port.rnd = s.port.rnd
  draws : t.port.draws = s.port.draws
  result : c.result = false → t.port.result = s.port.result

/-- The addresses `I`, ..., `I + count - 1`, by the effective address the stores use. -/
def State.dataAddrs (s : State) (count : Nat) : List Nat := (List.range count).map s.dataAddr

/-- `count` bytes from `I` up all lie in memory. -/
def State.inRange (s : State) (count : Nat) : Prop := ∀ k, k < count → s.dataAddr k < 4096

/-! ## The table of 10_state.md R16 -/

/-- `pc` after a step that executes `i` without a fault, `s` being the state before it. -/
def pcAfter (i : Instr) (s : State) : Word :=
  let two := s.pc + 2
  let four := s.pc + 4
  match i with
  | .jpAddr nnn => BitVec.ofNat 16 nnn.toNat
  | .callAddr nnn => BitVec.ofNat 16 nnn.toNat
  | .ret _ => s.stack.toList.getD (s.sp.val - 1) 0
  | .jpV0Addr nnn => BitVec.ofNat 16 (nnn.toNat + (s.getV 0).toNat)
  | .seVxByte x nn => if s.getV x = nn then four else two
  | .sneVxByte x nn => if s.getV x ≠ nn then four else two
  | .seVxVy x y _ => if s.getV x = s.getV y then four else two
  | .sneVxVy x y _ => if s.getV x ≠ s.getV y then four else two
  | .skpVx x => if s.keys.getLsbD (s.getV x).toNat = true then four else two
  | .sknpVx x => if s.keys.getLsbD (s.getV x).toNat = false then four else two
  | .ldVxK _ => if s.keys = 0 then s.pc else two
  | .cls _ => two
  | .sysAddr _ => two
  | .ldVxByte _ _ => two
  | .addVxByte _ _ => two
  | .ldVxVy _ _ => two
  | .orVxVy _ _ => two
  | .andVxVy _ _ => two
  | .xorVxVy _ _ => two
  | .addVxVy _ _ => two
  | .subVxVy _ _ => two
  | .shrVx _ _ => two
  | .subnVxVy _ _ => two
  | .shlVx _ _ => two
  | .ldIAddr _ => two
  | .rndVxByte _ _ => two
  | .drwVxVyNibble _ _ _ => two
  | .ldVxDt _ => two
  | .ldDtVx _ => two
  | .ldStVx _ => two
  | .addIVx _ => two
  | .ldFVx _ => two
  | .ldBVx _ => two
  | .ldMemIVx _ => two
  | .ldVxMemI _ => two

/-! ## The table of 60_exceptions.md R141 -/

/-- `DataRange` for `count` bytes from `I` up: the condition and the reported address of 43_block_transfer.md R116. -/
def dataRangeOf (s : State) (count : Nat) : Option (FaultCode × Nat) :=
  if 1 ≤ count ∧ s.i.toNat + count - 1 ≥ 4096 then some (.dataRange, max s.i.toNat 4096) else none

/-- The fault an instruction raises in a state, and its `fault.info`. -/
def faultOf (i : Instr) (s : State) : Option (FaultCode × Nat) :=
  match i with
  | .drwVxVyNibble _ _ n => dataRangeOf s n.toNat
  | .ldBVx _ => dataRangeOf s 3
  | .ldMemIVx x => dataRangeOf s x.val
  | .ldVxMemI x => dataRangeOf s x.val
  | .callAddr _ => if s.sp.val = 16 then some (.stackOverflow, 16) else none
  | .ret _ => if s.sp.val = 0 then some (.stackUnderflow, 0) else none
  | .skpVx x => if (s.getV x).toNat > 15 then some (.keyIndexRange, (s.getV x).toNat) else none
  | .sknpVx x => if (s.getV x).toNat > 15 then some (.keyIndexRange, (s.getV x).toNat) else none
  | .cls _ => none
  | .sysAddr _ => none
  | .jpAddr _ => none
  | .seVxByte _ _ => none
  | .sneVxByte _ _ => none
  | .seVxVy _ _ _ => none
  | .ldVxByte _ _ => none
  | .addVxByte _ _ => none
  | .ldVxVy _ _ => none
  | .orVxVy _ _ => none
  | .andVxVy _ _ => none
  | .xorVxVy _ _ => none
  | .addVxVy _ _ => none
  | .subVxVy _ _ => none
  | .shrVx _ _ => none
  | .subnVxVy _ _ => none
  | .shlVx _ _ => none
  | .sneVxVy _ _ _ => none
  | .ldIAddr _ => none
  | .jpV0Addr _ => none
  | .rndVxByte _ _ => none
  | .ldVxDt _ => none
  | .ldVxK _ => none
  | .ldDtVx _ => none
  | .ldStVx _ => none
  | .addIVx _ => none
  | .ldFVx _ => none

/-! ## The invariant -/

/-- What a fault latch records about the halted state it stands in (60_exceptions.md R141, R142). `pc` is the address of
the step that faulted. Either that address is out of range and the latch is `FetchRange`'s, or the recorded word decodes
to an instruction which the fault table, read in this very state, gives the recorded code and offending value: what the
condition is about (`I`, the V registers, `sp`) the halt has kept. -/
def State.latchDescribes (s : State) : Prop :=
  s.fault.pc = s.pc ∧
  ((s.pc.toNat > 0x0FFE ∧ s.fault.code = FaultCode.fetchRange.number ∧ s.fault.ir = 0 ∧ s.fault.info = s.pc) ∨
   (s.pc.toNat ≤ 0x0FFE ∧ ∃ i c n, decodeWord s.fault.ir = .ok i ∧ faultOf i s = some (c, n) ∧
     s.fault.code = c.number ∧ s.fault.info = BitVec.ofNat 16 n))

/-- The invariant of the block: memory keeps its canonical form; the latch is clear, or it describes the halted state;
every stack slot is a pushed return address or 0; `pc` is at most 0x10FE, so that no write of it wraps
(10_state.md R17). -/
structure State.Inv (s : State) : Prop where
  mem : s.mem.wf
  latchClear : s.running → s.fault = FaultLatch.clear
  latchSet : s.halted → s.latchDescribes
  slots : ∀ j : Fin 16, (s.stack.get j).toNat ≤ 0x1000
  pc : s.pc.toNat ≤ 0x10FE

/-! ## The draw instruction, pixel by pixel -/

/-- The sprite of `DRW Vx, Vy, n` has a 1 bit over cell (row `py`, column `px`): row `r` of the sprite and bit `7 - c`
of its byte land there, both coordinates wrapping (45_display.md R120). -/
def State.spriteCovers (s : State) (x y : Reg) (n : Nibble) (py : Fin 32) (px : Fin 64) : Prop :=
  ∃ r c, r < n.toNat ∧ c < 8 ∧ py.val = ((s.getV y).toNat % 32 + r) % 32 ∧
    px.val = ((s.getV x).toNat % 64 + c) % 64 ∧ (s.readByte (s.i.toNat + r)).getLsbD (7 - c) = true

/-- `fb[y][x] = 1`. -/
def State.lit (s : State) (py : Fin 32) (px : Fin 64) : Prop := s.fb.pixel py px = true

/-! ## The opcode map of 30_encoding.md R61 as a table -/

/-- One row: a word `ir` matches when `(ir and mask) = value`; `instr` is the instruction it then is. -/
structure OpcodeRow where
  value : Word
  mask : Word
  instr : Word → Instr

/-- The rows in the order written (R61), operands cut out of the word by division (bit numbers of R56). -/
def opcodeRows : List OpcodeRow :=
  let x (w : Word) : Reg := ⟨w.toNat / 256 % 16, Nat.mod_lt _ (by decide)⟩
  let y (w : Word) : Reg := ⟨w.toNat / 16 % 16, Nat.mod_lt _ (by decide)⟩
  let nib (k : Nat) (w : Word) : Nibble := BitVec.ofNat 4 (w.toNat / 16 ^ k)
  let nn (w : Word) : Byte := BitVec.ofNat 8 w.toNat
  let nnn (w : Word) : Addr := BitVec.ofNat 12 w.toNat
  [⟨0x00E0, 0xF0FF, fun w => .cls (nib 2 w)⟩, ⟨0x00EE, 0xF0FF, fun w => .ret (nib 2 w)⟩,
   ⟨0x0000, 0xF000, fun w => .sysAddr (nnn w)⟩, ⟨0x1000, 0xF000, fun w => .jpAddr (nnn w)⟩,
   ⟨0x2000, 0xF000, fun w => .callAddr (nnn w)⟩, ⟨0x3000, 0xF000, fun w => .seVxByte (x w) (nn w)⟩,
   ⟨0x4000, 0xF000, fun w => .sneVxByte (x w) (nn w)⟩, ⟨0x5000, 0xF000, fun w => .seVxVy (x w) (y w) (nib 0 w)⟩,
   ⟨0x6000, 0xF000, fun w => .ldVxByte (x w) (nn w)⟩, ⟨0x7000, 0xF000, fun w => .addVxByte (x w) (nn w)⟩] ++
  [⟨0x8000, 0xF00F, fun w => .ldVxVy (x w) (y w)⟩, ⟨0x8001, 0xF00F, fun w => .orVxVy (x w) (y w)⟩,
   ⟨0x8002, 0xF00F, fun w => .andVxVy (x w) (y w)⟩, ⟨0x8003, 0xF00F, fun w => .xorVxVy (x w) (y w)⟩,
   ⟨0x8004, 0xF00F, fun w => .addVxVy (x w) (y w)⟩, ⟨0x8005, 0xF00F, fun w => .subVxVy (x w) (y w)⟩,
   ⟨0x8006, 0xF00F, fun w => .shrVx (x w) (nib 1 w)⟩, ⟨0x8007, 0xF00F, fun w => .subnVxVy (x w) (y w)⟩,
   ⟨0x800E, 0xF00F, fun w => .shlVx (x w) (nib 1 w)⟩] ++
  [⟨0x9000, 0xF000, fun w => .sneVxVy (x w) (y w) (nib 0 w)⟩, ⟨0xA000, 0xF000, fun w => .ldIAddr (nnn w)⟩,
   ⟨0xB000, 0xF000, fun w => .jpV0Addr (nnn w)⟩, ⟨0xC000, 0xF000, fun w => .rndVxByte (x w) (nn w)⟩,
   ⟨0xD000, 0xF000, fun w => .drwVxVyNibble (x w) (y w) (nib 0 w)⟩, ⟨0xE09E, 0xF0FF, fun w => .skpVx (x w)⟩,
   ⟨0xE0A1, 0xF0FF, fun w => .sknpVx (x w)⟩] ++
  [⟨0xF007, 0xF0FF, fun w => .ldVxDt (x w)⟩, ⟨0xF00A, 0xF0FF, fun w => .ldVxK (x w)⟩,
   ⟨0xF015, 0xF0FF, fun w => .ldDtVx (x w)⟩, ⟨0xF018, 0xF0FF, fun w => .ldStVx (x w)⟩,
   ⟨0xF01E, 0xF0FF, fun w => .addIVx (x w)⟩, ⟨0xF029, 0xF0FF, fun w => .ldFVx (x w)⟩,
   ⟨0xF033, 0xF0FF, fun w => .ldBVx (x w)⟩, ⟨0xF055, 0xF0FF, fun w => .ldMemIVx (x w)⟩,
   ⟨0xF065, 0xF0FF, fun w => .ldVxMemI (x w)⟩]

/-! ## Who writes VF (10_state.md R13) -/

/-- The six instructions that write VF as a flag. -/
def writesFlag : Instr → Bool
  | .addVxVy _ _ => true
  | .subVxVy _ _ => true
  | .shrVx _ _ => true
  | .subnVxVy _ _ => true
  | .shlVx _ _ => true
  | .drwVxVyNibble _ _ _ => true
  | _ => false

/-- The register an instruction names as its destination `X`. The block load names a count, not a destination. -/
def destination : Instr → Option Reg
  | .ldVxByte x _ => some x
  | .addVxByte x _ => some x
  | .ldVxVy x _ => some x
  | .orVxVy x _ => some x
  | .andVxVy x _ => some x
  | .xorVxVy x _ => some x
  | .addVxVy x _ => some x
  | .subVxVy x _ => some x
  | .shrVx x _ => some x
  | .subnVxVy x _ => some x
  | .shlVx x _ => some x
  | .rndVxByte x _ => some x
  | .ldVxDt x => some x
  | .ldVxK x => some x
  | _ => none

/-! ## Runs of instructions and of ticks -/

/-- An instruction that touches the call stack. -/
def touchesStack : Instr → Prop
  | .callAddr _ => True
  | .ret _ => True
  | _ => False

/-- Instructions executed one after another, each ending in a next state. -/
inductive Executes : List Instr → State → State → Prop where
  | done (s : State) : Executes [] s s
  | more {i : Instr} {is : List Instr} {s t u : State} (h : exec i s = .next t) (k : Executes is t u) :
      Executes (i :: is) s u

/-- `k` ticks. -/
def State.ticks (s : State) : Nat → State
  | 0 => s
  | k + 1 => (s.ticks k).tick

end Sys2Proof.Machine
end

