-- ==== Sys2Proof/Certificates/Slice0/Obligations.lean ====
section
/-! DEFINITION. The statements for the provers. Each docstring names the rule of the spec it formalises; where a clause
rests on a decision the spec marks as its own or on a log entry, the docstring says so. -/

open Sys2Proof Sys2Proof.Machine

/-! ## Encoding -/

/-- Decoding the word of a well-formed instruction gives it back, every operand at every value (30_encoding.md R61). The
numbering of 22 rows is the spec's own choice (92_eei_decisions.md D16). -/
def Obligations.DecodeEncodeRoundTrip : Prop :=
  ∀ i : Instr, i.wellFormed = true → decodeWord (encode i) = .ok i

/-- A decoded instruction is well-formed and its word is the very word it was decoded from: no bit is dropped (log entry
8: ignored bits are kept). -/
def Obligations.EncodeInvertsDecode : Prop :=
  ∀ (w : Word) (i : Instr), decodeWord w = .ok i → encode i = w ∧ i.wellFormed = true

/-- The decoder is the opcode map of 30_encoding.md R61: the first row in the order written whose masked value the word
has, its operands at the bits of R56; every other word is unrecognized. -/
def Obligations.DecodeFollowsOpcodeMap : Prop :=
  ∀ w : Word, decodeWord w =
    match opcodeRows.find? (fun row => decide (w &&& row.mask = row.value)) with
    | some row => .ok (row.instr w)
    | none => .error (.unrecognized w)

/-- The words that decode to no row, and the words that decode to `SYS`, are exactly those of 30_encoding.md R63 (the
counts there are not restated). -/
def Obligations.UnrecognizedWordsExactly : Prop :=
  ∀ w : Word,
    (decodeWord w = .error (.unrecognized w) ↔
      (w.toNat / 4096 = 8 ∧ w.toNat % 16 ∈ [0x8, 0x9, 0xA, 0xB, 0xC, 0xD, 0xF]) ∨
      (w.toNat / 4096 = 0xE ∧ w.toNat % 256 ∉ [0x9E, 0xA1]) ∨
      (w.toNat / 4096 = 0xF ∧ w.toNat % 256 ∉ [0x07, 0x0A, 0x15, 0x18, 0x1E, 0x29, 0x33, 0x55, 0x65])) ∧
    ((∃ nnn, decodeWord w = .ok (.sysAddr nnn)) ↔ w.toNat / 4096 = 0 ∧ w.toNat % 256 ∉ [0xE0, 0xEE])

/-- Words of the test vectors (95_test_vectors.md, parts 1 and 2), at least one for each of the sixteen primary opcodes,
decode to the instruction they stand for. The numbering of 22 rows is the spec's own choice (92_eei_decisions.md
D16). -/
def Obligations.SampleWordsDecode : Prop :=
  decodeWord 0x00E0 = .ok (.cls 0) ∧ decodeWord 0x07EE = .ok (.ret 7) ∧
  decodeWord 0x0123 = .ok (.sysAddr 0x123) ∧ decodeWord 0x1ABC = .ok (.jpAddr 0xABC) ∧
  decodeWord 0x2ABC = .ok (.callAddr 0xABC) ∧ decodeWord 0x3342 = .ok (.seVxByte 3 0x42) ∧
  decodeWord 0x4342 = .ok (.sneVxByte 3 0x42) ∧ decodeWord 0x5340 = .ok (.seVxVy 3 4 0) ∧
  decodeWord 0x6A02 = .ok (.ldVxByte 10 0x02) ∧ decodeWord 0x7105 = .ok (.addVxByte 1 0x05) ∧
  decodeWord 0x8124 = .ok (.addVxVy 1 2) ∧ decodeWord 0x9340 = .ok (.sneVxVy 3 4 0) ∧
  decodeWord 0xA050 = .ok (.ldIAddr 0x050) ∧ decodeWord 0xB300 = .ok (.jpV0Addr 0x300) ∧
  decodeWord 0xC10F = .ok (.rndVxByte 1 0x0F) ∧ decodeWord 0xDA05 = .ok (.drwVxVyNibble 10 0 5) ∧
  decodeWord 0xE49E = .ok (.skpVx 4) ∧ decodeWord 0xF307 = .ok (.ldVxDt 3) ∧
  decodeWord 0xF333 = .ok (.ldBVx 3) ∧ decodeWord 0xF265 = .ok (.ldVxMemI 2)

/-! ## The step -/

/-- A `STEP` of a running core whose two bytes at `pc` decode to `i` is `exec i` (10_state.md R25): around `exec` the
step takes the transaction from the schedule and puts the `rnd` argument and an empty report into `port`. Both shapes
of a `STEP` are covered: listed by the environment, and not listed (log entries 1, 2: the model's own). -/
def Obligations.StepRunsDecodedInstruction : Prop :=
  ∀ (s : State) (i : Instr), s.running → s.pc.toNat ≤ 0x0FFE →
    decodeBytes [s.readByte s.pc.toNat, s.readByte (s.pc.toNat + 1)] = .ok (i, []) →
    (s.port.pending = [] →
      step s = exec i (s.setPort ⟨[], Config.rndByte s.port.draws, s.port.draws + 1, .stepped none⟩)) ∧
    (∀ r rest, s.port.pending = .step r :: rest →
      step s = exec i (s.setPort ⟨rest, r, s.port.draws, .stepped none⟩))

/-- An unrecognized word is not a fault: the step ends with `pc` past it, no other block state changed and a report made
(30_encoding.md R64). That the report carries the word and the address it was fetched from is 60_exceptions.md R150, the
spec's own decision (92_eei_decisions.md D22); that `SYS` words take this path is its decision D15; that the report is
kept in `port.result` is the model's choice (log entry 9). -/
def Obligations.UnrecognizedWordIsReported : Prop :=
  ∀ (s : State) (r : Byte) (w : Word), s.running → s.fetch = some w →
    (decodeWord w = .error (.unrecognized w) ∨ ∃ nnn, decodeWord w = .ok (.sysAddr nnn)) →
    ∃ u, runTransaction (.step r) s = .next u ∧ u.pc = s.pc + 2 ∧ (s.setPc (s.pc + 2)).sameBlock u ∧
      u.port.result = .stepped (some ⟨w, s.pc⟩)

/-- A step that begins with `pc` above 0x0FFE sets the latch with code 1, `ir` 0 and that `pc`, and changes nothing else;
from 0x0FFE down the fetch joins two bytes big-endian, even or odd (20_memory.md R42, R43; the fault is the spec's
decision D4, the missing alignment check its decision D9). -/
def Obligations.FetchIsBigEndianOrFaults : Prop :=
  ∀ (s : State) (r : Byte), s.running →
    (s.pc.toNat > 0x0FFE →
      ∃ u, runTransaction (.step r) s = .next u ∧ (s.setFault ⟨true, 1, s.pc, 0, s.pc⟩).sameBlock u ∧
        u.port.result = .stepped none) ∧
    (s.pc.toNat ≤ 0x0FFE →
      ∃ w, s.fetch = some w ∧
        w.toNat = (s.readByte s.pc.toNat).toNat * 256 + (s.readByte (s.pc.toNat + 1)).toNat)

/-- The environment's transactions happen in the order listed, one a step; where none is listed the step is a `STEP`
with the next free byte (log entries 1, 2: the model's own schedule). -/
def Obligations.PendingTransactionsTakeTurns : Prop :=
  ∀ s : State,
    (∀ t rest, s.port.pending = t :: rest →
      step s = runTransaction t (s.setPort { s.port with pending := rest })) ∧
    (s.port.pending = [] →
      step s = runTransaction (.step (Config.rndByte s.port.draws)) (s.setPort { s.port with draws := s.port.draws + 1 }))

/-- No step stops the model: every step of every state ends in a next state (30_encoding.md R65, 60_exceptions.md R163;
faults are taken, log entry 5). -/
def Obligations.StepAlwaysEndsInANextState : Prop :=
  ∀ s : State, ∃ t, step s = .next t

/-- How each instruction leaves `pc` (10_state.md R16): by the table of the rule when the step does not fault, `pc0 + 2`
for an unrecognized word, `pc0` for any step that faults; and a skip moves `pc` by 2 or 4 and no more. -/
def Obligations.PcAfterEachInstruction : Prop :=
  ∀ (s u : State) (r : Byte), s.running → runTransaction (.step r) s = .next u →
    (u.halted → u.pc = s.pc) ∧
    (∀ i, s.runs i → u.running → u.pc = pcAfter i s) ∧
    (∀ w, s.fetch = some w → decodeWord w = .error (.unrecognized w) → u.pc = s.pc + 2) ∧
    (∀ (x y : Reg) (nn : Byte) (g : Nibble),
      s.runs (.seVxByte x nn) ∨ s.runs (.sneVxByte x nn) ∨ s.runs (.seVxVy x y g) ∨ s.runs (.sneVxVy x y g) ∨
        s.runs (.skpVx x) ∨ s.runs (.sknpVx x) →
      u.running → u.pc = s.pc + 2 ∨ u.pc = s.pc + 4)

/-! ## Faults -/

/-- The table of 60_exceptions.md R141 with the entry of R142: an instruction faults in exactly the states the table
gives, with its code and its offending value; a fault sets the latch and changes nothing else; no other instruction
and no other state touches the latch. The fault mechanism is the spec's own decision (92_eei_decisions.md D2 to D7). -/
def Obligations.FaultsAreExactAndPrecise : Prop :=
  ∀ (i : Instr) (s : State),
    match faultOf i s with
    | some (c, info) => exec i s = .next (s.setFault ⟨true, c.number, s.pc, encode i, BitVec.ofNat 16 info⟩)
    | none => ∃ t, exec i s = .next t ∧ t.fault = s.fault

/-- A halted core: `STEP` changes no block state and reports nothing; every other transaction but `RESET` acts exactly as
it would with any other latch, and leaves the latch (60_exceptions.md R143; the spec's decision D34). -/
def Obligations.HaltedCoreIgnoresStep : Prop :=
  ∀ s : State, s.halted →
    (∀ r, ∃ u, runTransaction (.step r) s = .next u ∧ s.sameBlock u ∧ u.port.result = .stepped none) ∧
    (∀ (t : Transaction) (f : FaultLatch), t ≠ .reset → (∀ r, t ≠ .step r) →
      ∃ u, runTransaction t s = .next u ∧ u.fault = s.fault ∧
        runTransaction t (s.setFault f) = .next (u.setFault f))

/-- The first fault is the one kept: however many steps follow, as long as no `RESET` is among their transactions, the
latch, `pc`, `I`, the registers, the call stack and the frame buffer stay (60_exceptions.md R143, R152). -/
def Obligations.HaltedUntilReset : Prop :=
  ∀ (n : Nat) (s : State), s.halted → (∀ t ∈ s.port.pending.take n, t ≠ .reset) →
    ∃ u : State, Host.Core.run Sys2Proof.core n s = .next u ∧ u.fault = s.fault ∧ u.pc = s.pc ∧ u.i = s.i ∧
      u.v = s.v ∧ u.stack = s.stack ∧ u.sp = s.sp ∧ u.fb = s.fb

/-! ## Reset, the invariant, the ports -/

/-- The state after `RESET` (70_reset_and_hazards.md R171). The font bytes are the spec's default parameter (log entry
4), the reset of the keypad and of the fault latch its decision D26. -/
def Obligations.ResetStateHoldsTheseValues : Prop :=
  (∀ a, State.reset.readByte a = if 0x050 ≤ a ∧ a < 0x0A0 then fontTable.getD (a - 0x050) 0 else 0) ∧
  fontTable.length = 80 ∧ (∀ r, State.reset.getV r = 0) ∧ State.reset.i = 0 ∧ State.reset.pc = 0x200 ∧
  (∀ j, State.reset.stack.get j = 0) ∧ State.reset.sp = 0 ∧ State.reset.dt = 0 ∧ State.reset.st = 0 ∧
  State.reset.keys = 0 ∧ (∀ y x, State.reset.fb.pixel y x = false) ∧ State.reset.redraw = false ∧
  State.reset.fault = FaultLatch.clear

/-- `RESET` may be issued in any state, halted or not, cannot fail, and leaves a block state that does not depend on the
state before it (70_reset_and_hazards.md R170, R172); what the environment still has to issue stays (log entry 13). -/
def Obligations.ResetForgetsEverything : Prop :=
  ∀ s : State, ∃ u, runTransaction .reset s = .next u ∧ State.reset.sameBlock u ∧
    u.port.pending = s.port.pending ∧ u.port.draws = s.port.draws ∧
    ∃ w, runTransaction .reset u = .next w ∧ w = u

/-- The invariant holds after `RESET`. -/
def Obligations.InvariantAtReset : Prop := State.reset.Inv

/-- Every step, whatever the transaction, keeps the invariant: canonical memory (log entry 6: the model's own); a latch
that is clear, or names `pc` and, unless the fetch faulted, a word that decodes to an instruction to which the fault table
gives the latch's code and value in this very state (60_exceptions.md R141 to R143; the fault mechanism is the spec's own
decision, 92_eei_decisions.md D2 to D7); stack slots that are pushed return addresses or 0; and a `pc` of at most 0x10FE
(10_state.md R17). -/
def Obligations.InvariantKeptByEveryStep : Prop :=
  ∀ s t : State, s.Inv → step s = .next t → t.Inv

/-- Which transaction writes which state; a blank cell means never (10_state.md R28). -/
def Obligations.OwnershipOfState : Prop :=
  ∀ (t : Transaction) (s u : State), runTransaction t s = .next u →
    (t = .reset → State.reset.sameBlock u) ∧
    (∀ a, u.readByte a ≠ s.readByte a →
      t = .reset ∨ (∃ bs, t = .load (some bs) ∧ 0x200 ≤ a ∧ a < 0x200 + bs.length) ∨
      ∃ r x, t = .step r ∧ (s.runs (.ldBVx x) ∨ s.runs (.ldMemIVx x))) ∧
    (∀ x, u.getV x ≠ s.getV x → t = .reset ∨ ∃ r, t = .step r) ∧
    (u.i ≠ s.i →
      t = .reset ∨ ∃ r, t = .step r ∧
        ((∃ a, s.runs (.ldIAddr a)) ∨ (∃ x, s.runs (.addIVx x)) ∨ ∃ x, s.runs (.ldFVx x))) ∧
    (u.pc ≠ s.pc → t = .reset ∨ ∃ r, t = .step r ∧ u.running) ∧
    (∀ j, u.stack.get j ≠ s.stack.get j → t = .reset ∨ ∃ r a, t = .step r ∧ s.runs (.callAddr a)) ∧
    (u.sp ≠ s.sp →
      t = .reset ∨ ∃ r, t = .step r ∧ ((∃ a, s.runs (.callAddr a)) ∨ ∃ g, s.runs (.ret g))) ∧
    (u.dt ≠ s.dt →
      t = .reset ∨ (∃ r x, t = .step r ∧ s.runs (.ldDtVx x)) ∨ (t = .tick ∧ u.dt.toNat = s.dt.toNat - 1)) ∧
    (u.st ≠ s.st →
      t = .reset ∨ (∃ r x, t = .step r ∧ s.runs (.ldStVx x)) ∨ (t = .tick ∧ u.st.toNat = s.st.toNat - 1)) ∧
    (u.keys ≠ s.keys → t = .reset ∨ ∃ k, t = .keys k) ∧
    (∀ k, t = .keys k → u.keys = k) ∧
    (u.fb ≠ s.fb →
      t = .reset ∨ ∃ r, t = .step r ∧ ((∃ g, s.runs (.cls g)) ∨ ∃ x y n, s.runs (.drwVxVyNibble x y n))) ∧
    (u.redraw ≠ s.redraw →
      t = .reset ∨ (t = .present ∧ u.redraw = false) ∨
      ∃ r, t = .step r ∧ u.redraw = true ∧ ((∃ g, s.runs (.cls g)) ∨ ∃ x y n, s.runs (.drwVxVyNibble x y n))) ∧
    (t = .present → u.redraw = false) ∧
    (u.fault ≠ s.fault → t = .reset ∨ ∃ r, t = .step r ∧ s.running ∧ u.halted)

/-- `LOAD` (20_memory.md R52, R53): up to 3584 bytes are copied to 0x200 and nothing else changes; 3585 or more, and a
source that could not be read, change nothing (all or nothing is the spec's decision D25). -/
def Obligations.LoadCopiesTheProgram : Prop :=
  ∀ s : State,
    (∀ bs : List Byte, bs.length ≤ 3584 →
      ∃ u, runTransaction (.load (some bs)) s = .next u ∧ u.port.result = .loaded .ok ∧
        (s.setMem u.mem).sameBlock u ∧
        ∀ a, u.readByte a = if 0x200 ≤ a ∧ a < 0x200 + bs.length then bs.getD (a - 0x200) 0 else s.readByte a) ∧
    (∀ bs : List Byte, 3584 < bs.length →
      ∃ u, runTransaction (.load (some bs)) s = .next u ∧ u.port.result = .loaded .programTooLarge ∧ s.sameBlock u) ∧
    (∃ u, runTransaction (.load none) s = .next u ∧ u.port.result = .loaded .sourceUnavailable ∧ s.sameBlock u)

/-- `TICK` (60_exceptions.md R155): each timer falls by one, floor at 0, `tone` is 1 exactly when `st` was 1, and nothing
else changes, halted or not. That what it returns is kept in `port.result` is log entry 9. -/
def Obligations.TickCountsBothTimersDown : Prop :=
  ∀ s : State, ∃ u, runTransaction .tick s = .next u ∧
    u.dt.toNat = s.dt.toNat - 1 ∧ u.st.toNat = s.st.toNat - 1 ∧
    u.port.result = .ticked (decide (s.st = 1)) ∧ ((s.setDt u.dt).setSt u.st).sameBlock u

/-- `KEYS(k)` writes all sixteen keys and nothing else; `PRESENT` hands out the frame and the redraw flag and clears the
flag and nothing else (60_exceptions.md R159, R160; one transaction each is the spec's decision D1, D36). -/
def Obligations.KeysAndPresentPorts : Prop :=
  ∀ s : State,
    (∀ k, ∃ u, runTransaction (.keys k) s = .next u ∧ (∀ j, j < 16 → u.key j = k.getLsbD j) ∧
      (s.setKeys u.keys).sameBlock u) ∧
    (∃ u, runTransaction .present s = .next u ∧ u.port.result = .presented s.fb s.redraw ∧
      (s.setRedraw false).sameBlock u)

/-- The self-jump is a stable end of a run: every further `STEP` leaves the block as it is (70_reset_and_hazards.md R183;
taking it as the end of a run is the spec's decision D37). -/
def Obligations.SelfJumpIsStable : Prop :=
  ∀ (s : State) (r : Byte), s.selfJump → ∃ u, runTransaction (.step r) s = .next u ∧ s.sameBlock u ∧ u.selfJump

/-! ## Control flow -/

/-- `SYS addr` is reported and stepped over (40_control_flow.md R76; giving it no handler is the spec's decision D15, what
the report carries its decision D22; that the report is kept in `port.result` is log entry 9). -/
def Obligations.SysIsReportedAndSkipped : Prop :=
  ∀ (nnn : Addr) (s : State), ∃ t, exec (.sysAddr nnn) s = .next t ∧ t.pc = s.pc + 2 ∧
    t.port.result = .stepped (some ⟨BitVec.ofNat 16 nnn.toNat, s.pc⟩) ∧ Frame { pc := true, result := true } s t

/-- `RET` with a return address on the stack pops it into `pc`; the slot keeps its value (40_control_flow.md R77; the
number of the encoding is the spec's decision D16). -/
def Obligations.RetPopsTheNewestAddress : Prop :=
  ∀ (g : Nibble) (s : State), 0 < s.sp.val →
    ∃ t, exec (.ret g) s = .next t ∧ t.sp.val = s.sp.val - 1 ∧
      t.pc = s.stack.toList.getD (s.sp.val - 1) 0 ∧ Frame { pc := true, sp := true } s t

/-- `CALL addr` with a free slot pushes the address of the next instruction and jumps (40_control_flow.md R79; the number
of the encoding is the spec's decision D16). -/
def Obligations.CallPushesTheNextAddress : Prop :=
  ∀ (nnn : Addr) (s : State) (h : s.sp.val < 16),
    ∃ t, exec (.callAddr nnn) s = .next t ∧ t.stack.get ⟨s.sp.val, h⟩ = s.pc + 2 ∧ t.sp.val = s.sp.val + 1 ∧
      t.pc.toNat = nnn.toNat ∧ Frame { slots := [⟨s.sp.val, h⟩], pc := true, sp := true } s t

/-- Call and return: after a `CALL`, any number of instructions that do not touch the stack, and a `RET`, `pc` is at the
instruction after the `CALL` and the stack pointer is back (40_control_flow.md R77, corner cases). -/
def Obligations.CallThenReturnComesBack : Prop :=
  ∀ (nnn : Addr) (g : Nibble) (is : List Instr) (s t u : State), s.sp.val < 16 →
    exec (.callAddr nnn) s = .next t → (∀ i ∈ is, ¬touchesStack i) → Executes is t u →
    ∃ w, exec (.ret g) u = .next w ∧ w.pc = s.pc + 2 ∧ w.sp = s.sp

/-- `JP addr` and `JP V0, addr` (40_control_flow.md R78, R83): the target is NNN, or NNN + V0 not reduced modulo 4096
(that `BNNN` is this operation is the spec's decision D15). -/
def Obligations.JumpsReachTheirTargets : Prop :=
  ∀ (nnn : Addr) (s : State),
    (∃ t, exec (.jpAddr nnn) s = .next t ∧ t.pc.toNat = nnn.toNat ∧ Frame { pc := true } s t) ∧
    (∃ t, exec (.jpV0Addr nnn) s = .next t ∧ t.pc.toNat = nnn.toNat + (s.getV 0).toNat ∧ Frame { pc := true } s t)

/-- `SE Vx, byte` and `SNE Vx, byte` (40_control_flow.md R80, R81; the numbers are the spec's decision D16). -/
def Obligations.SkipsOnAnImmediate : Prop :=
  ∀ (x : Reg) (nn : Byte) (s : State),
    (∃ t, exec (.seVxByte x nn) s = .next t ∧ Frame { pc := true } s t ∧
      (s.getV x = nn → t.pc = s.pc + 4) ∧ (s.getV x ≠ nn → t.pc = s.pc + 2)) ∧
    (∃ t, exec (.sneVxByte x nn) s = .next t ∧ Frame { pc := true } s t ∧
      (s.getV x ≠ nn → t.pc = s.pc + 4) ∧ (s.getV x = nn → t.pc = s.pc + 2))

/-- `SE Vx, Vy` and `SNE Vx, Vy` (40_control_flow.md R82, R84; the numbers are the spec's decision D16). -/
def Obligations.SkipsOnTwoRegisters : Prop :=
  ∀ (x y : Reg) (g : Nibble) (s : State),
    (∃ t, exec (.seVxVy x y g) s = .next t ∧ Frame { pc := true } s t ∧
      (s.getV x = s.getV y → t.pc = s.pc + 4) ∧ (s.getV x ≠ s.getV y → t.pc = s.pc + 2)) ∧
    (∃ t, exec (.sneVxVy x y g) s = .next t ∧ Frame { pc := true } s t ∧
      (s.getV x ≠ s.getV y → t.pc = s.pc + 4) ∧ (s.getV x = s.getV y → t.pc = s.pc + 2))

/-! ## Register operations -/

/-- `LD Vx, byte` (41_register_ops.md R91), its word `6XNN` among the encodings D0 spells. -/
def Obligations.LoadImmediateWritesVx : Prop :=
  ∀ (x : Reg) (nn : Byte) (s : State),
    decodeWord (BitVec.ofNat 16 (0x6000 + x.val * 256 + nn.toNat)) = .ok (.ldVxByte x nn) ∧
    ∃ t, exec (.ldVxByte x nn) s = .next t ∧ t.getV x = nn ∧ t.pc = s.pc + 2 ∧ Frame { regs := [x], pc := true } s t

/-- `ADD Vx, byte` (41_register_ops.md R92): 8-bit wraparound; VF is written only as an ordinary destination (the number
of the encoding is the spec's decision D16). -/
def Obligations.AddImmediateWrapsWithoutFlag : Prop :=
  ∀ (x : Reg) (nn : Byte) (s : State),
    ∃ t, exec (.addVxByte x nn) s = .next t ∧ (t.getV x).toNat = ((s.getV x).toNat + nn.toNat) % 256 ∧
      t.pc = s.pc + 2 ∧ Frame { regs := [x], pc := true } s t

/-- `LD Vx, Vy`, `OR`, `AND`, `XOR` (41_register_ops.md R93 to R96), bit by bit; VF is not written (the spec's decision
D12) unless it is the destination. -/
def Obligations.MoveAndLogicWriteOnlyVx : Prop :=
  ∀ (x y : Reg) (s : State),
    (∃ t, exec (.ldVxVy x y) s = .next t ∧ t.getV x = s.getV y ∧ t.pc = s.pc + 2 ∧
      Frame { regs := [x], pc := true } s t) ∧
    (∃ t, exec (.orVxVy x y) s = .next t ∧ t.pc = s.pc + 2 ∧ Frame { regs := [x], pc := true } s t ∧
      ∀ j, (t.getV x).getLsbD j = ((s.getV x).getLsbD j || (s.getV y).getLsbD j)) ∧
    (∃ t, exec (.andVxVy x y) s = .next t ∧ t.pc = s.pc + 2 ∧ Frame { regs := [x], pc := true } s t ∧
      ∀ j, (t.getV x).getLsbD j = ((s.getV x).getLsbD j && (s.getV y).getLsbD j)) ∧
    (∃ t, exec (.xorVxVy x y) s = .next t ∧ t.pc = s.pc + 2 ∧ Frame { regs := [x], pc := true } s t ∧
      ∀ j, (t.getV x).getLsbD j = ((s.getV x).getLsbD j ^^ (s.getV y).getLsbD j))

/-- `ADD Vx, Vy` (41_register_ops.md R97): sum modulo 256, VF is the carry; with `X = 15` the flag survives (the spec's
decision D10). -/
def Obligations.AddSetsCarry : Prop :=
  ∀ (x y : Reg) (s : State),
    ∃ t, exec (.addVxVy x y) s = .next t ∧
      (x ≠ VF → (t.getV x).toNat = ((s.getV x).toNat + (s.getV y).toNat) % 256) ∧
      (t.getV VF).toNat = (if (s.getV x).toNat + (s.getV y).toNat > 255 then 1 else 0) ∧
      t.pc = s.pc + 2 ∧ Frame { regs := [x, VF], pc := true } s t

/-- `SUB Vx, Vy` and `SUBN Vx, Vy` (41_register_ops.md R98, R100): the difference modulo 256, VF is 1 when there is no
borrow, equal operands included; with `X = 15` the flag survives (the spec's decision D10). -/
def Obligations.SubtractsSetNotBorrow : Prop :=
  ∀ (x y : Reg) (s : State),
    (∃ t, exec (.subVxVy x y) s = .next t ∧
      (x ≠ VF → ((t.getV x).toNat : Int) = ((s.getV x).toNat - (s.getV y).toNat : Int) % 256) ∧
      (t.getV VF).toNat = (if (s.getV x).toNat ≥ (s.getV y).toNat then 1 else 0) ∧
      t.pc = s.pc + 2 ∧ Frame { regs := [x, VF], pc := true } s t) ∧
    (∃ t, exec (.subnVxVy x y) s = .next t ∧
      (x ≠ VF → ((t.getV x).toNat : Int) = ((s.getV y).toNat - (s.getV x).toNat : Int) % 256) ∧
      (t.getV VF).toNat = (if (s.getV y).toNat ≥ (s.getV x).toNat then 1 else 0) ∧
      t.pc = s.pc + 2 ∧ Frame { regs := [x, VF], pc := true } s t)

/-- `SHR Vx` and `SHL Vx` (41_register_ops.md R99, R101): VX is shifted in place, whatever the ignored field holds (the
spec's decision D11), VF is the bit shifted out; with `X = 15` the flag survives (D10). -/
def Obligations.ShiftsCaptureTheBitShiftedOut : Prop :=
  ∀ (x : Reg) (g : Nibble) (s : State),
    (∃ t, exec (.shrVx x g) s = .next t ∧ (x ≠ VF → (t.getV x).toNat = (s.getV x).toNat / 2) ∧
      (t.getV VF).toNat = (s.getV x).toNat % 2 ∧ t.pc = s.pc + 2 ∧ Frame { regs := [x, VF], pc := true } s t) ∧
    (∃ t, exec (.shlVx x g) s = .next t ∧ (x ≠ VF → (t.getV x).toNat = (s.getV x).toNat * 2 % 256) ∧
      (t.getV VF).toNat = (s.getV x).toNat / 128 ∧ t.pc = s.pc + 2 ∧ Frame { regs := [x, VF], pc := true } s t)

/-- Who writes VF (10_state.md R13): only the six flag-writing instructions, and an instruction whose destination field
is 15; and what the six leave there is 0 or 1 (`DRW` where it does not fault). -/
def Obligations.VfWrittenAsFlagOrDestination : Prop :=
  ∀ (i : Instr) (s t : State), exec i s = .next t →
    (t.getV VF ≠ s.getV VF → writesFlag i = true ∨ destination i = some VF) ∧
    (writesFlag i = true → faultOf i s = none → t.getV VF = 0 ∨ t.getV VF = 1)

/-! ## Index operations and block transfer -/

/-- `LD I, addr` (42_index_ops.md R105), its word `ANNN` among the encodings D0 spells: every value it can give `I` is a
valid address of one byte. -/
def Obligations.LoadIndexWritesI : Prop :=
  ∀ (nnn : Addr) (s : State),
    decodeWord (BitVec.ofNat 16 (0xA000 + nnn.toNat)) = .ok (.ldIAddr nnn) ∧
    ∃ t, exec (.ldIAddr nnn) s = .next t ∧ t.i.toNat = nnn.toNat ∧ t.dataAddr 0 < 4096 ∧
      (nnn.toNat = 0xFFF → ∀ k, 1 ≤ k → ¬t.dataAddr k < 4096) ∧
      t.pc = s.pc + 2 ∧ Frame { i := true, pc := true } s t

/-- `ADD I, Vx` (42_index_ops.md R106): modulo 65536, no flag, no range check (the wrap is the spec's decision D8). -/
def Obligations.AddIndexWrapsAt65536 : Prop :=
  ∀ (x : Reg) (s : State),
    ∃ t, exec (.addIVx x) s = .next t ∧ t.i.toNat = (s.i.toNat + (s.getV x).toNat) % 65536 ∧
      t.pc = s.pc + 2 ∧ Frame { i := true, pc := true } s t

/-- `LD F, Vx` (42_index_ops.md R107): the glyph address of the low nibble, always in the font region (the number of the
encoding is the spec's decision D16). -/
def Obligations.LoadGlyphAddress : Prop :=
  ∀ (x : Reg) (s : State),
    ∃ t, exec (.ldFVx x) s = .next t ∧ t.i.toNat = 0x050 + 5 * ((s.getV x).toNat % 16) ∧
      0x050 ≤ t.i.toNat ∧ t.i.toNat + 5 ≤ 0x0A0 ∧ t.pc = s.pc + 2 ∧ Frame { i := true, pc := true } s t

/-- `LD B, Vx` in range (42_index_ops.md R108): hundreds, tens and units at I, I+1, I+2, every other byte as before (the
number of the encoding is the spec's decision D16). -/
def Obligations.StoreDecimalDigits : Prop :=
  ∀ (x : Reg) (s : State), s.inRange 3 →
    ∃ t, exec (.ldBVx x) s = .next t ∧
      (t.readByte (s.dataAddr 0)).toNat = (s.getV x).toNat / 100 ∧
      (t.readByte (s.dataAddr 1)).toNat = (s.getV x).toNat / 10 % 10 ∧
      (t.readByte (s.dataAddr 2)).toNat = (s.getV x).toNat % 10 ∧
      t.pc = s.pc + 2 ∧ Frame { bytes := s.dataAddrs 3, pc := true } s t

/-- `LD [I], Vx` in range (43_block_transfer.md R113, R115): V0 to V(X-1) at I and up, VX excluded, I unchanged (the
spec's decision D13), every other byte as before. -/
def Obligations.StoreRegistersExcludesVx : Prop :=
  ∀ (x : Reg) (s : State), s.inRange x.val →
    ∃ t, exec (.ldMemIVx x) s = .next t ∧
      (∀ k : Reg, k.val < x.val → t.readByte (s.dataAddr k.val) = s.getV k) ∧
      t.pc = s.pc + 2 ∧ Frame { bytes := s.dataAddrs x.val, pc := true } s t

/-- `LD Vx, [I]` in range (43_block_transfer.md R114, R115): V0 to V(X-1) from I and up; VX and the higher registers keep
their values (I unchanged is the spec's decision D13). -/
def Obligations.LoadRegistersExcludesVx : Prop :=
  ∀ (x : Reg) (s : State), s.inRange x.val →
    ∃ t, exec (.ldVxMemI x) s = .next t ∧
      (∀ k : Reg, k.val < x.val → t.getV k = s.readByte (s.dataAddr k.val)) ∧
      (∀ k : Reg, x.val ≤ k.val → t.getV k = s.getV k) ∧
      t.pc = s.pc + 2 ∧ Frame { regs := (List.finRange 16).filter (fun k => k.val < x.val), pc := true } s t

/-- A stored byte is the byte a later fetch reads (20_memory.md R50; no fetch buffer is the spec's decision D32): after
`LD [I], Vx` a fetch from any address, even or odd, joins the bytes as they now stand. -/
def Obligations.StoredBytesAreFetched : Prop :=
  ∀ (x : Reg) (s t : State) (a : Word), s.inRange x.val → exec (.ldMemIVx x) s = .next t → a.toNat ≤ 0x0FFE →
    ∃ w, (t.setPc a).fetch = some w ∧
      ∀ hi lo : Byte,
        (∀ k : Reg, k.val < x.val → s.dataAddr k.val = a.toNat → hi = s.getV k) →
        (a.toNat ∉ s.dataAddrs x.val → hi = s.readByte a.toNat) →
        (∀ k : Reg, k.val < x.val → s.dataAddr k.val = a.toNat + 1 → lo = s.getV k) →
        (a.toNat + 1 ∉ s.dataAddrs x.val → lo = s.readByte (a.toNat + 1)) →
        w.toNat = hi.toNat * 256 + lo.toNat

/-! ## Random, display, timers, input -/

/-- `RND Vx, byte` (44_random.md R118): the byte of the `STEP` in progress, masked, whatever that byte is (the number of
the encoding is the spec's decision D16). -/
def Obligations.RandomByteIsMasked : Prop :=
  ∀ (x : Reg) (nn : Byte) (s : State),
    ∃ t, exec (.rndVxByte x nn) s = .next t ∧
      (∀ j, (t.getV x).getLsbD j = (s.port.rnd.getLsbD j && nn.getLsbD j)) ∧
      t.pc = s.pc + 2 ∧ Frame { regs := [x], pc := true } s t

/-- `DRW Vx, Vy, nibble` in range (45_display.md R120), pixel by pixel: a cell under a 1 bit of the sprite is toggled and
every other cell kept, both coordinates wrapping; VF is 1 exactly when a lit cell was toggled; `redraw` is set. Bit 7 as
the leftmost pixel is the spec's decision D18, N = 0 its decision D29. -/
def Obligations.DrawTogglesTheSpriteCells : Prop :=
  ∀ (x y : Reg) (n : Nibble) (s : State), s.inRange n.toNat →
    ∃ t, exec (.drwVxVyNibble x y n) s = .next t ∧
      (∀ py px, (s.spriteCovers x y n py px → (t.lit py px ↔ ¬s.lit py px)) ∧
        (¬s.spriteCovers x y n py px → (t.lit py px ↔ s.lit py px))) ∧
      ((∃ py px, s.spriteCovers x y n py px ∧ s.lit py px) → t.getV VF = 1) ∧
      ((¬∃ py px, s.spriteCovers x y n py px ∧ s.lit py px) → t.getV VF = 0) ∧
      t.redraw = true ∧ t.pc = s.pc + 2 ∧ Frame { regs := [VF], pc := true, fb := true, redraw := true } s t

/-- Two identical draws with the coordinates unchanged restore the frame buffer, and the second sets VF exactly when the
sprite covers a cell that was off before the first (45_display.md R122; the flag part is the spec's derivation). -/
def Obligations.DoubleDrawRestoresTheFrame : Prop :=
  ∀ (x y : Reg) (n : Nibble) (s t u : State), s.inRange n.toNat →
    exec (.drwVxVyNibble x y n) s = .next t → exec (.drwVxVyNibble x y n) t = .next u →
    t.getV x = s.getV x → t.getV y = s.getV y →
    u.fb = s.fb ∧ (u.getV VF = 1 ↔ ∃ py px, s.spriteCovers x y n py px ∧ ¬s.lit py px)

/-- `CLS` (45_display.md R123), `00E0` with `ir[11:8]` ignored: every pixel off and `redraw` set, whatever they were. -/
def Obligations.ClearScreenClearsAndSetsRedraw : Prop :=
  ∀ (g : Nibble) (s : State),
    decodeWord (BitVec.ofNat 16 (g.toNat * 256 + 0xE0)) = .ok (.cls g) ∧
    ∃ t, exec (.cls g) s = .next t ∧ (∀ y x, t.fb.pixel y x = false) ∧ t.redraw = true ∧ t.pc = s.pc + 2 ∧
      Frame { pc := true, fb := true, redraw := true } s t

/-- `LD Vx, DT` (46_timers.md R127), `FX07`: VX takes the delay timer, which stays; `dt` changes between steps only
through `TICK`, `LD DT, Vx` and, as everything does, `RESET`. -/
def Obligations.ReadDelayTimer : Prop :=
  ∀ (x : Reg) (s : State),
    decodeWord (BitVec.ofNat 16 (0xF007 + x.val * 256)) = .ok (.ldVxDt x) ∧
    (∃ t, exec (.ldVxDt x) s = .next t ∧ t.getV x = s.dt ∧ t.dt = s.dt ∧ t.pc = s.pc + 2 ∧
      Frame { regs := [x], pc := true } s t) ∧
    (∀ i t, exec i s = .next t → (∀ y, i ≠ .ldDtVx y) → t.dt = s.dt) ∧
    (∀ tr u, runTransaction tr s = .next u → u.dt ≠ s.dt →
      tr = .reset ∨ tr = .tick ∨ ∃ r y, tr = .step r ∧ s.runs (.ldDtVx y))

/-- `LD DT, Vx` (46_timers.md R128), `FX15`: the delay timer takes VX, and after `k` ticks holds VX - k, floor at 0. -/
def Obligations.WriteDelayTimer : Prop :=
  ∀ (x : Reg) (s : State),
    decodeWord (BitVec.ofNat 16 (0xF015 + x.val * 256)) = .ok (.ldDtVx x) ∧
    ∃ t, exec (.ldDtVx x) s = .next t ∧ t.dt = s.getV x ∧ t.pc = s.pc + 2 ∧ Frame { dt := true, pc := true } s t ∧
      ∀ k, (t.ticks k).dt.toNat = (s.getV x).toNat - k

/-- `LD ST, Vx` (46_timers.md R129), `FX18`: the sound timer takes VX; the tone is asserted once, on the VX-th following
tick, and never when VX is 0; no instruction reads `st` back. -/
def Obligations.WriteSoundTimer : Prop :=
  ∀ (x : Reg) (s : State),
    decodeWord (BitVec.ofNat 16 (0xF018 + x.val * 256)) = .ok (.ldStVx x) ∧
    (∃ t, exec (.ldStVx x) s = .next t ∧ t.st = s.getV x ∧ t.pc = s.pc + 2 ∧ Frame { st := true, pc := true } s t ∧
      ∀ k, (t.ticks (k + 1)).port.result = .ticked (decide ((s.getV x).toNat = k + 1))) ∧
    (∀ i t a, exec i s = .next t →
      exec i (s.setSt a) = .next (if (∃ y, i = .ldStVx y) then t else t.setSt a))

/-- `SKP Vx` and `SKNP Vx` with VX at most 15 (47_input.md R132, R133): the skip is taken on the key pressed, or not
pressed. -/
def Obligations.SkipsOnAKey : Prop :=
  ∀ (x : Reg) (s : State), (s.getV x).toNat ≤ 15 →
    (∃ t, exec (.skpVx x) s = .next t ∧ Frame { pc := true } s t ∧
      (s.key (s.getV x).toNat = true → t.pc = s.pc + 4) ∧ (s.key (s.getV x).toNat = false → t.pc = s.pc + 2)) ∧
    (∃ t, exec (.sknpVx x) s = .next t ∧ Frame { pc := true } s t ∧
      (s.key (s.getV x).toNat = false → t.pc = s.pc + 4) ∧ (s.key (s.getV x).toNat = true → t.pc = s.pc + 2))

/-- `LD Vx, K` (47_input.md R134, R135): with no key pressed the state does not change at all; with some key pressed VX
takes the index of a pressed key, picked by one function of the keypad value. The function is open: nothing else is
said of it (log entry 3). -/
def Obligations.KeyWaitPollsThenTakesAPressedKey : Prop :=
  ∃ pick : Word → Fin 16, ∀ (x : Reg) (s : State),
    (s.keys = 0 → exec (.ldVxK x) s = .next s) ∧
    (s.keys ≠ 0 → s.key (pick s.keys).val = true ∧
      ∃ t, exec (.ldVxK x) s = .next t ∧ (t.getV x).toNat = (pick s.keys).val ∧ t.pc = s.pc + 2 ∧
        Frame { regs := [x], pc := true } s t)
end

