-- ==== Sys2Proof/Laws/Encoding.lean ====
section
/-! SUPPORT. The fields of the three word shapes of the encoder, and words under a mask. -/

namespace Sys2Proof

theorem wordA_bit (p : Nibble) (a : Addr) (i : Nat) :
    (wordA p a).getLsbD i = if i < 12 then a.getLsbD i else p.getLsbD (i - 12) := by
  show BitVec.getLsbD (w := 4 + 12) (p ++ a) i = _
  rw [BitVec.getLsbD_append]

theorem wordI_bit (p x : Nibble) (nn : Byte) (i : Nat) :
    (wordI p x nn).getLsbD i =
      if i < 8 then nn.getLsbD i else if i < 12 then x.getLsbD (i - 8) else p.getLsbD (i - 12) := by
  show BitVec.getLsbD (w := 4 + 4 + 8) (p ++ x ++ nn) i = _
  rw [BitVec.getLsbD_append, BitVec.getLsbD_append, Nat.sub_sub]
  split_ifs <;> first | rfl | (exfalso; omega)

theorem wordR_bit (p x y n : Nibble) (i : Nat) :
    (wordR p x y n).getLsbD i =
      if i < 4 then n.getLsbD i else if i < 8 then y.getLsbD (i - 4) else if i < 12 then x.getLsbD (i - 8)
      else p.getLsbD (i - 12) := by
  show BitVec.getLsbD (w := 4 + 4 + 4 + 4) (p ++ x ++ y ++ n) i = _
  rw [BitVec.getLsbD_append, BitVec.getLsbD_append, BitVec.getLsbD_append]
  simp only [Nat.sub_sub]
  split_ifs <;> first | rfl | (exfalso; omega)

/-! ## The fields of each shape -/

variable (p x y n : Nibble) (nn : Byte) (nnn : Addr)

@[simp] theorem fieldP_wordA : fieldP (wordA p nnn) = p := by
  ext i hi
  simp only [fieldP, BitVec.getElem_extractLsb', wordA_bit]
  rw [if_neg (by omega), Nat.add_sub_cancel_left, BitVec.getLsbD_eq_getElem hi]

@[simp] theorem fieldNNN_wordA : fieldNNN (wordA p nnn) = nnn := by
  ext i hi
  simp only [fieldNNN, BitVec.getElem_extractLsb', wordA_bit, Nat.zero_add]
  rw [if_pos hi, BitVec.getLsbD_eq_getElem hi]

@[simp] theorem fieldNN_wordA : fieldNN (wordA p nnn) = nnn.extractLsb' 0 8 := by
  ext i hi
  simp only [fieldNN, BitVec.getElem_extractLsb', wordA_bit, Nat.zero_add]
  rw [if_pos (by omega)]

@[simp] theorem fieldP_wordI : fieldP (wordI p x nn) = p := by
  ext i hi
  simp only [fieldP, BitVec.getElem_extractLsb', wordI_bit]
  rw [if_neg (by omega), if_neg (by omega), Nat.add_sub_cancel_left, BitVec.getLsbD_eq_getElem hi]

@[simp] theorem fieldX_wordI : fieldX (wordI p x nn) = x := by
  ext i hi
  simp only [fieldX, BitVec.getElem_extractLsb', wordI_bit]
  rw [if_neg (by omega), if_pos (by omega), Nat.add_sub_cancel_left, BitVec.getLsbD_eq_getElem hi]

@[simp] theorem fieldNN_wordI : fieldNN (wordI p x nn) = nn := by
  ext i hi
  simp only [fieldNN, BitVec.getElem_extractLsb', wordI_bit, Nat.zero_add]
  rw [if_pos hi, BitVec.getLsbD_eq_getElem hi]

@[simp] theorem fieldP_wordR : fieldP (wordR p x y n) = p := by
  ext i hi
  simp only [fieldP, BitVec.getElem_extractLsb', wordR_bit]
  rw [if_neg (by omega), if_neg (by omega), if_neg (by omega), Nat.add_sub_cancel_left,
    BitVec.getLsbD_eq_getElem hi]

@[simp] theorem fieldX_wordR : fieldX (wordR p x y n) = x := by
  ext i hi
  simp only [fieldX, BitVec.getElem_extractLsb', wordR_bit]
  rw [if_neg (by omega), if_neg (by omega), if_pos (by omega), Nat.add_sub_cancel_left,
    BitVec.getLsbD_eq_getElem hi]

@[simp] theorem fieldY_wordR : fieldY (wordR p x y n) = y := by
  ext i hi
  simp only [fieldY, BitVec.getElem_extractLsb', wordR_bit]
  rw [if_neg (by omega), if_pos (by omega), Nat.add_sub_cancel_left, BitVec.getLsbD_eq_getElem hi]

@[simp] theorem fieldN_wordR : fieldN (wordR p x y n) = n := by
  ext i hi
  simp only [fieldN, BitVec.getElem_extractLsb', wordR_bit, Nat.zero_add]
  rw [if_pos hi, BitVec.getLsbD_eq_getElem hi]

@[simp] theorem regOf_regBits (r : Reg) : regOf (regBits r) = r := by
  apply Fin.ext
  show (BitVec.ofNat 4 r.val).toNat = r.val
  simp

@[simp] theorem regBits_regOf (f : Nibble) : regBits (regOf f) = f := by
  apply BitVec.eq_of_toNat_eq
  simp [regBits, regOf]

/-! ## A word is the join of its fields -/

theorem wordA_fields (ir : Word) : wordA (fieldP ir) (fieldNNN ir) = ir := by
  apply BitVec.eq_of_getLsbD_eq
  intro i hi
  simp only [wordA_bit, fieldP, fieldNNN, BitVec.getLsbD_extractLsb']
  split
  · simp_all
  · simp [show i - 12 < 4 by omega, show 12 + (i - 12) = i by omega]

theorem wordI_fields (ir : Word) : wordI (fieldP ir) (fieldX ir) (fieldNN ir) = ir := by
  apply BitVec.eq_of_getLsbD_eq
  intro i hi
  simp only [wordI_bit, fieldP, fieldX, fieldNN, BitVec.getLsbD_extractLsb']
  split
  · simp_all
  · split
    · simp [show i - 8 < 4 by omega, show 8 + (i - 8) = i by omega]
    · simp [show i - 12 < 4 by omega, show 12 + (i - 12) = i by omega]

theorem wordR_fields (ir : Word) : wordR (fieldP ir) (fieldX ir) (fieldY ir) (fieldN ir) = ir := by
  apply BitVec.eq_of_getLsbD_eq
  intro i hi
  simp only [wordR_bit, fieldP, fieldX, fieldY, fieldN, BitVec.getLsbD_extractLsb']
  split
  · simp_all
  · split
    · simp [show i - 4 < 4 by omega, show 4 + (i - 4) = i by omega]
    · split
      · simp [show i - 8 < 4 by omega, show 8 + (i - 8) = i by omega]
      · simp [show i - 12 < 4 by omega, show 12 + (i - 12) = i by omega]

/-! ## Words as numbers -/

theorem wordA_toNat : (wordA p nnn).toNat = p.toNat * 4096 + nnn.toNat := by
  show BitVec.toNat (w := 4 + 12) (p ++ nnn) = _
  rw [BitVec.toNat_append, ← Nat.shiftLeft_add_eq_or_of_lt nnn.isLt, Nat.shiftLeft_eq]

theorem wordI_toNat : (wordI p x nn).toNat = p.toNat * 4096 + x.toNat * 256 + nn.toNat := by
  show BitVec.toNat (w := 4 + 4 + 8) (p ++ x ++ nn) = _
  rw [BitVec.toNat_append, ← Nat.shiftLeft_add_eq_or_of_lt nn.isLt, Nat.shiftLeft_eq, BitVec.toNat_append,
    ← Nat.shiftLeft_add_eq_or_of_lt x.isLt, Nat.shiftLeft_eq]
  omega

theorem wordR_toNat : (wordR p x y n).toNat = p.toNat * 4096 + x.toNat * 256 + y.toNat * 16 + n.toNat := by
  show BitVec.toNat (w := 4 + 4 + 4 + 4) (p ++ x ++ y ++ n) = _
  rw [BitVec.toNat_append, ← Nat.shiftLeft_add_eq_or_of_lt n.isLt, Nat.shiftLeft_eq, BitVec.toNat_append,
    ← Nat.shiftLeft_add_eq_or_of_lt y.isLt, Nat.shiftLeft_eq, BitVec.toNat_append,
    ← Nat.shiftLeft_add_eq_or_of_lt x.isLt, Nat.shiftLeft_eq]
  omega

theorem wordOfBytes_toNat (hi lo : Byte) : (wordOfBytes hi lo).toNat = hi.toNat * 256 + lo.toNat := by
  show BitVec.toNat (w := 8 + 8) (hi ++ lo) = _
  rw [BitVec.toNat_append, ← Nat.shiftLeft_add_eq_or_of_lt lo.isLt, Nat.shiftLeft_eq]

theorem fieldP_toNat (ir : Word) : (fieldP ir).toNat = ir.toNat / 4096 := by
  simp only [fieldP, BitVec.extractLsb'_toNat, Nat.shiftRight_eq_div_pow]
  have := ir.isLt
  omega

theorem fieldX_toNat (ir : Word) : (fieldX ir).toNat = ir.toNat / 256 % 16 := by
  simp only [fieldX, BitVec.extractLsb'_toNat, Nat.shiftRight_eq_div_pow]

theorem fieldY_toNat (ir : Word) : (fieldY ir).toNat = ir.toNat / 16 % 16 := by
  simp only [fieldY, BitVec.extractLsb'_toNat, Nat.shiftRight_eq_div_pow]

theorem fieldN_toNat (ir : Word) : (fieldN ir).toNat = ir.toNat % 16 := by
  simp only [fieldN, BitVec.extractLsb'_toNat, Nat.shiftRight_zero]

theorem fieldNN_toNat (ir : Word) : (fieldNN ir).toNat = ir.toNat % 256 := by
  simp only [fieldNN, BitVec.extractLsb'_toNat, Nat.shiftRight_zero]

theorem fieldNNN_toNat (ir : Word) : (fieldNNN ir).toNat = ir.toNat % 4096 := by
  simp only [fieldNNN, BitVec.extractLsb'_toNat, Nat.shiftRight_zero]

/-! ## Words under a mask -/

theorem wordA_and (p' : Nibble) (nnn' : Addr) : wordA p nnn &&& wordA p' nnn' = wordA (p &&& p') (nnn &&& nnn') := by
  apply BitVec.eq_of_getLsbD_eq
  intro i hi
  simp only [BitVec.getLsbD_and, wordA_bit]
  split <;> simp

theorem wordI_and (p' x' : Nibble) (nn' : Byte) :
    wordI p x nn &&& wordI p' x' nn' = wordI (p &&& p') (x &&& x') (nn &&& nn') := by
  apply BitVec.eq_of_getLsbD_eq
  intro i hi
  simp only [BitVec.getLsbD_and, wordI_bit]
  split_ifs <;> simp

theorem wordR_and (p' x' y' n' : Nibble) :
    wordR p x y n &&& wordR p' x' y' n' = wordR (p &&& p') (x &&& x') (y &&& y') (n &&& n') := by
  apply BitVec.eq_of_getLsbD_eq
  intro i hi
  simp only [BitVec.getLsbD_and, wordR_bit]
  split_ifs <;> simp

/-! ## Bytes of a word -/

/-- The two bytes of a word, joined again, are the word. -/
@[simp] theorem wordOfBytes_bytes (w : Word) : wordOfBytes (w.extractLsb' 8 8) (w.extractLsb' 0 8) = w := by
  apply BitVec.eq_of_getLsbD_eq
  intro i hi
  show BitVec.getLsbD (w := 8 + 8) (w.extractLsb' 8 8 ++ w.extractLsb' 0 8) i = _
  simp only [BitVec.getLsbD_append, BitVec.getLsbD_extractLsb']
  split
  · simp_all
  · simp [show i - 8 < 8 by omega, show 8 + (i - 8) = i by omega]

/-! ## A word from what its fields are -/

variable {p x y n nn nnn} {w : Word}

theorem wordA_of_fields (hp : fieldP w = p) (ha : fieldNNN w = nnn) : wordA p nnn = w := by
  subst hp ha; exact wordA_fields w

theorem wordI_of_fields (hp : fieldP w = p) (hx : fieldX w = x) (hn : fieldNN w = nn) : wordI p x nn = w := by
  subst hp hx hn; exact wordI_fields w

theorem wordR_of_fields (hp : fieldP w = p) (hx : fieldX w = x) (hy : fieldY w = y) (hn : fieldN w = n) :
    wordR p x y n = w := by
  subst hp hx hy hn; exact wordR_fields w

theorem nibble_of_toNat {f : Nibble} {k : Nat} (h : f.toNat = k) : f = BitVec.ofNat 4 k := by subst h; simp

/-- Group 0: the decoded instruction's word is the word, and it is well-formed. -/
theorem encode_decodeGroup0 (hp : fieldP w = 0) :
    encode (decodeGroup0 w) = w ∧ (decodeGroup0 w).wellFormed = true := by
  unfold decodeGroup0
  split
  · exact ⟨wordI_of_fields hp rfl ‹_›, rfl⟩
  · split
    · exact ⟨wordI_of_fields hp rfl ‹_›, rfl⟩
    · refine ⟨wordA_of_fields hp rfl, ?_⟩
      have e : (fieldNNN w).extractLsb' 0 8 = fieldNN w := by
        apply BitVec.eq_of_toNat_eq
        rw [fieldNN_toNat, BitVec.extractLsb'_toNat, fieldNNN_toNat, Nat.shiftRight_zero]
        omega
      simp [Instr.wellFormed, isSysAddr, *]

/-- Group 8: the decoded instruction's word is the word, and it is well-formed. -/
theorem encode_decodeGroup8 {i : Instr} (hp : fieldP w = 8) (h : decodeGroup8 w = .ok i) :
    encode i = w ∧ i.wellFormed = true := by
  unfold decodeGroup8 at h
  simp only at h
  split at h
  case h_10 => cases h
  all_goals
    cases h
    refine ⟨?_, rfl⟩
    simp only [encode, regBits_regOf]
    exact wordR_of_fields hp rfl rfl (nibble_of_toNat ‹_›)

/-- Group E: the decoded instruction's word is the word, and it is well-formed. -/
theorem encode_decodeGroupE {i : Instr} (hp : fieldP w = 0xE) (h : decodeGroupE w = .ok i) :
    encode i = w ∧ i.wellFormed = true := by
  simp only [decodeGroupE] at h
  split_ifs at h
  all_goals
    cases h
    refine ⟨?_, rfl⟩
    simp only [encode, regBits_regOf]
    exact wordI_of_fields hp rfl ‹_›

/-- Group F: the decoded instruction's word is the word, and it is well-formed. -/
theorem encode_decodeGroupF {i : Instr} (hp : fieldP w = 0xF) (h : decodeGroupF w = .ok i) :
    encode i = w ∧ i.wellFormed = true := by
  simp only [decodeGroupF] at h
  split_ifs at h
  all_goals
    cases h
    refine ⟨?_, rfl⟩
    simp only [encode, regBits_regOf]
    exact wordI_of_fields hp rfl ‹_›

end Sys2Proof
end

