-- ==== Sys2Proof/Laws/State.lean ====
section
/-! SUPPORT. One lemma per field per update of State, so that no later proof unfolds a record update; and what the
composed updates (`setV`, `advance`, `answer`, `raise`, `report`, `begin`) do to each field. -/

namespace Sys2Proof.Machine

variable (s : State)

@[simp] theorem State.setMem_mem (a : Memory) : (s.setMem a).mem = a := rfl
@[simp] theorem State.setMem_v (a : Memory) : (s.setMem a).v = s.v := rfl
@[simp] theorem State.setMem_i (a : Memory) : (s.setMem a).i = s.i := rfl
@[simp] theorem State.setMem_pc (a : Memory) : (s.setMem a).pc = s.pc := rfl
@[simp] theorem State.setMem_stack (a : Memory) : (s.setMem a).stack = s.stack := rfl
@[simp] theorem State.setMem_sp (a : Memory) : (s.setMem a).sp = s.sp := rfl
@[simp] theorem State.setMem_dt (a : Memory) : (s.setMem a).dt = s.dt := rfl
@[simp] theorem State.setMem_st (a : Memory) : (s.setMem a).st = s.st := rfl
@[simp] theorem State.setMem_keys (a : Memory) : (s.setMem a).keys = s.keys := rfl
@[simp] theorem State.setMem_fb (a : Memory) : (s.setMem a).fb = s.fb := rfl
@[simp] theorem State.setMem_redraw (a : Memory) : (s.setMem a).redraw = s.redraw := rfl
@[simp] theorem State.setMem_fault (a : Memory) : (s.setMem a).fault = s.fault := rfl
@[simp] theorem State.setMem_port (a : Memory) : (s.setMem a).port = s.port := rfl

@[simp] theorem State.setRegs_mem (a : Vector Byte 16) : (s.setRegs a).mem = s.mem := rfl
@[simp] theorem State.setRegs_v (a : Vector Byte 16) : (s.setRegs a).v = a := rfl
@[simp] theorem State.setRegs_i (a : Vector Byte 16) : (s.setRegs a).i = s.i := rfl
@[simp] theorem State.setRegs_pc (a : Vector Byte 16) : (s.setRegs a).pc = s.pc := rfl
@[simp] theorem State.setRegs_stack (a : Vector Byte 16) : (s.setRegs a).stack = s.stack := rfl
@[simp] theorem State.setRegs_sp (a : Vector Byte 16) : (s.setRegs a).sp = s.sp := rfl
@[simp] theorem State.setRegs_dt (a : Vector Byte 16) : (s.setRegs a).dt = s.dt := rfl
@[simp] theorem State.setRegs_st (a : Vector Byte 16) : (s.setRegs a).st = s.st := rfl
@[simp] theorem State.setRegs_keys (a : Vector Byte 16) : (s.setRegs a).keys = s.keys := rfl
@[simp] theorem State.setRegs_fb (a : Vector Byte 16) : (s.setRegs a).fb = s.fb := rfl
@[simp] theorem State.setRegs_redraw (a : Vector Byte 16) : (s.setRegs a).redraw = s.redraw := rfl
@[simp] theorem State.setRegs_fault (a : Vector Byte 16) : (s.setRegs a).fault = s.fault := rfl
@[simp] theorem State.setRegs_port (a : Vector Byte 16) : (s.setRegs a).port = s.port := rfl

@[simp] theorem State.setI_mem (a : Word) : (s.setI a).mem = s.mem := rfl
@[simp] theorem State.setI_v (a : Word) : (s.setI a).v = s.v := rfl
@[simp] theorem State.setI_i (a : Word) : (s.setI a).i = a := rfl
@[simp] theorem State.setI_pc (a : Word) : (s.setI a).pc = s.pc := rfl
@[simp] theorem State.setI_stack (a : Word) : (s.setI a).stack = s.stack := rfl
@[simp] theorem State.setI_sp (a : Word) : (s.setI a).sp = s.sp := rfl
@[simp] theorem State.setI_dt (a : Word) : (s.setI a).dt = s.dt := rfl
@[simp] theorem State.setI_st (a : Word) : (s.setI a).st = s.st := rfl
@[simp] theorem State.setI_keys (a : Word) : (s.setI a).keys = s.keys := rfl
@[simp] theorem State.setI_fb (a : Word) : (s.setI a).fb = s.fb := rfl
@[simp] theorem State.setI_redraw (a : Word) : (s.setI a).redraw = s.redraw := rfl
@[simp] theorem State.setI_fault (a : Word) : (s.setI a).fault = s.fault := rfl
@[simp] theorem State.setI_port (a : Word) : (s.setI a).port = s.port := rfl

@[simp] theorem State.setPc_mem (a : Word) : (s.setPc a).mem = s.mem := rfl
@[simp] theorem State.setPc_v (a : Word) : (s.setPc a).v = s.v := rfl
@[simp] theorem State.setPc_i (a : Word) : (s.setPc a).i = s.i := rfl
@[simp] theorem State.setPc_pc (a : Word) : (s.setPc a).pc = a := rfl
@[simp] theorem State.setPc_stack (a : Word) : (s.setPc a).stack = s.stack := rfl
@[simp] theorem State.setPc_sp (a : Word) : (s.setPc a).sp = s.sp := rfl
@[simp] theorem State.setPc_dt (a : Word) : (s.setPc a).dt = s.dt := rfl
@[simp] theorem State.setPc_st (a : Word) : (s.setPc a).st = s.st := rfl
@[simp] theorem State.setPc_keys (a : Word) : (s.setPc a).keys = s.keys := rfl
@[simp] theorem State.setPc_fb (a : Word) : (s.setPc a).fb = s.fb := rfl
@[simp] theorem State.setPc_redraw (a : Word) : (s.setPc a).redraw = s.redraw := rfl
@[simp] theorem State.setPc_fault (a : Word) : (s.setPc a).fault = s.fault := rfl
@[simp] theorem State.setPc_port (a : Word) : (s.setPc a).port = s.port := rfl

@[simp] theorem State.setStack_mem (a : Vector Word 16) : (s.setStack a).mem = s.mem := rfl
@[simp] theorem State.setStack_v (a : Vector Word 16) : (s.setStack a).v = s.v := rfl
@[simp] theorem State.setStack_i (a : Vector Word 16) : (s.setStack a).i = s.i := rfl
@[simp] theorem State.setStack_pc (a : Vector Word 16) : (s.setStack a).pc = s.pc := rfl
@[simp] theorem State.setStack_stack (a : Vector Word 16) : (s.setStack a).stack = a := rfl
@[simp] theorem State.setStack_sp (a : Vector Word 16) : (s.setStack a).sp = s.sp := rfl
@[simp] theorem State.setStack_dt (a : Vector Word 16) : (s.setStack a).dt = s.dt := rfl
@[simp] theorem State.setStack_st (a : Vector Word 16) : (s.setStack a).st = s.st := rfl
@[simp] theorem State.setStack_keys (a : Vector Word 16) : (s.setStack a).keys = s.keys := rfl
@[simp] theorem State.setStack_fb (a : Vector Word 16) : (s.setStack a).fb = s.fb := rfl
@[simp] theorem State.setStack_redraw (a : Vector Word 16) : (s.setStack a).redraw = s.redraw := rfl
@[simp] theorem State.setStack_fault (a : Vector Word 16) : (s.setStack a).fault = s.fault := rfl
@[simp] theorem State.setStack_port (a : Vector Word 16) : (s.setStack a).port = s.port := rfl

@[simp] theorem State.setSp_mem (a : Fin 17) : (s.setSp a).mem = s.mem := rfl
@[simp] theorem State.setSp_v (a : Fin 17) : (s.setSp a).v = s.v := rfl
@[simp] theorem State.setSp_i (a : Fin 17) : (s.setSp a).i = s.i := rfl
@[simp] theorem State.setSp_pc (a : Fin 17) : (s.setSp a).pc = s.pc := rfl
@[simp] theorem State.setSp_stack (a : Fin 17) : (s.setSp a).stack = s.stack := rfl
@[simp] theorem State.setSp_sp (a : Fin 17) : (s.setSp a).sp = a := rfl
@[simp] theorem State.setSp_dt (a : Fin 17) : (s.setSp a).dt = s.dt := rfl
@[simp] theorem State.setSp_st (a : Fin 17) : (s.setSp a).st = s.st := rfl
@[simp] theorem State.setSp_keys (a : Fin 17) : (s.setSp a).keys = s.keys := rfl
@[simp] theorem State.setSp_fb (a : Fin 17) : (s.setSp a).fb = s.fb := rfl
@[simp] theorem State.setSp_redraw (a : Fin 17) : (s.setSp a).redraw = s.redraw := rfl
@[simp] theorem State.setSp_fault (a : Fin 17) : (s.setSp a).fault = s.fault := rfl
@[simp] theorem State.setSp_port (a : Fin 17) : (s.setSp a).port = s.port := rfl

@[simp] theorem State.setDt_mem (a : Byte) : (s.setDt a).mem = s.mem := rfl
@[simp] theorem State.setDt_v (a : Byte) : (s.setDt a).v = s.v := rfl
@[simp] theorem State.setDt_i (a : Byte) : (s.setDt a).i = s.i := rfl
@[simp] theorem State.setDt_pc (a : Byte) : (s.setDt a).pc = s.pc := rfl
@[simp] theorem State.setDt_stack (a : Byte) : (s.setDt a).stack = s.stack := rfl
@[simp] theorem State.setDt_sp (a : Byte) : (s.setDt a).sp = s.sp := rfl
@[simp] theorem State.setDt_dt (a : Byte) : (s.setDt a).dt = a := rfl
@[simp] theorem State.setDt_st (a : Byte) : (s.setDt a).st = s.st := rfl
@[simp] theorem State.setDt_keys (a : Byte) : (s.setDt a).keys = s.keys := rfl
@[simp] theorem State.setDt_fb (a : Byte) : (s.setDt a).fb = s.fb := rfl
@[simp] theorem State.setDt_redraw (a : Byte) : (s.setDt a).redraw = s.redraw := rfl
@[simp] theorem State.setDt_fault (a : Byte) : (s.setDt a).fault = s.fault := rfl
@[simp] theorem State.setDt_port (a : Byte) : (s.setDt a).port = s.port := rfl

@[simp] theorem State.setSt_mem (a : Byte) : (s.setSt a).mem = s.mem := rfl
@[simp] theorem State.setSt_v (a : Byte) : (s.setSt a).v = s.v := rfl
@[simp] theorem State.setSt_i (a : Byte) : (s.setSt a).i = s.i := rfl
@[simp] theorem State.setSt_pc (a : Byte) : (s.setSt a).pc = s.pc := rfl
@[simp] theorem State.setSt_stack (a : Byte) : (s.setSt a).stack = s.stack := rfl
@[simp] theorem State.setSt_sp (a : Byte) : (s.setSt a).sp = s.sp := rfl
@[simp] theorem State.setSt_dt (a : Byte) : (s.setSt a).dt = s.dt := rfl
@[simp] theorem State.setSt_st (a : Byte) : (s.setSt a).st = a := rfl
@[simp] theorem State.setSt_keys (a : Byte) : (s.setSt a).keys = s.keys := rfl
@[simp] theorem State.setSt_fb (a : Byte) : (s.setSt a).fb = s.fb := rfl
@[simp] theorem State.setSt_redraw (a : Byte) : (s.setSt a).redraw = s.redraw := rfl
@[simp] theorem State.setSt_fault (a : Byte) : (s.setSt a).fault = s.fault := rfl
@[simp] theorem State.setSt_port (a : Byte) : (s.setSt a).port = s.port := rfl

@[simp] theorem State.setKeys_mem (a : Word) : (s.setKeys a).mem = s.mem := rfl
@[simp] theorem State.setKeys_v (a : Word) : (s.setKeys a).v = s.v := rfl
@[simp] theorem State.setKeys_i (a : Word) : (s.setKeys a).i = s.i := rfl
@[simp] theorem State.setKeys_pc (a : Word) : (s.setKeys a).pc = s.pc := rfl
@[simp] theorem State.setKeys_stack (a : Word) : (s.setKeys a).stack = s.stack := rfl
@[simp] theorem State.setKeys_sp (a : Word) : (s.setKeys a).sp = s.sp := rfl
@[simp] theorem State.setKeys_dt (a : Word) : (s.setKeys a).dt = s.dt := rfl
@[simp] theorem State.setKeys_st (a : Word) : (s.setKeys a).st = s.st := rfl
@[simp] theorem State.setKeys_keys (a : Word) : (s.setKeys a).keys = a := rfl
@[simp] theorem State.setKeys_fb (a : Word) : (s.setKeys a).fb = s.fb := rfl
@[simp] theorem State.setKeys_redraw (a : Word) : (s.setKeys a).redraw = s.redraw := rfl
@[simp] theorem State.setKeys_fault (a : Word) : (s.setKeys a).fault = s.fault := rfl
@[simp] theorem State.setKeys_port (a : Word) : (s.setKeys a).port = s.port := rfl

@[simp] theorem State.setFb_mem (a : FrameBuffer) : (s.setFb a).mem = s.mem := rfl
@[simp] theorem State.setFb_v (a : FrameBuffer) : (s.setFb a).v = s.v := rfl
@[simp] theorem State.setFb_i (a : FrameBuffer) : (s.setFb a).i = s.i := rfl
@[simp] theorem State.setFb_pc (a : FrameBuffer) : (s.setFb a).pc = s.pc := rfl
@[simp] theorem State.setFb_stack (a : FrameBuffer) : (s.setFb a).stack = s.stack := rfl
@[simp] theorem State.setFb_sp (a : FrameBuffer) : (s.setFb a).sp = s.sp := rfl
@[simp] theorem State.setFb_dt (a : FrameBuffer) : (s.setFb a).dt = s.dt := rfl
@[simp] theorem State.setFb_st (a : FrameBuffer) : (s.setFb a).st = s.st := rfl
@[simp] theorem State.setFb_keys (a : FrameBuffer) : (s.setFb a).keys = s.keys := rfl
@[simp] theorem State.setFb_fb (a : FrameBuffer) : (s.setFb a).fb = a := rfl
@[simp] theorem State.setFb_redraw (a : FrameBuffer) : (s.setFb a).redraw = s.redraw := rfl
@[simp] theorem State.setFb_fault (a : FrameBuffer) : (s.setFb a).fault = s.fault := rfl
@[simp] theorem State.setFb_port (a : FrameBuffer) : (s.setFb a).port = s.port := rfl

@[simp] theorem State.setRedraw_mem (a : Bool) : (s.setRedraw a).mem = s.mem := rfl
@[simp] theorem State.setRedraw_v (a : Bool) : (s.setRedraw a).v = s.v := rfl
@[simp] theorem State.setRedraw_i (a : Bool) : (s.setRedraw a).i = s.i := rfl
@[simp] theorem State.setRedraw_pc (a : Bool) : (s.setRedraw a).pc = s.pc := rfl
@[simp] theorem State.setRedraw_stack (a : Bool) : (s.setRedraw a).stack = s.stack := rfl
@[simp] theorem State.setRedraw_sp (a : Bool) : (s.setRedraw a).sp = s.sp := rfl
@[simp] theorem State.setRedraw_dt (a : Bool) : (s.setRedraw a).dt = s.dt := rfl
@[simp] theorem State.setRedraw_st (a : Bool) : (s.setRedraw a).st = s.st := rfl
@[simp] theorem State.setRedraw_keys (a : Bool) : (s.setRedraw a).keys = s.keys := rfl
@[simp] theorem State.setRedraw_fb (a : Bool) : (s.setRedraw a).fb = s.fb := rfl
@[simp] theorem State.setRedraw_redraw (a : Bool) : (s.setRedraw a).redraw = a := rfl
@[simp] theorem State.setRedraw_fault (a : Bool) : (s.setRedraw a).fault = s.fault := rfl
@[simp] theorem State.setRedraw_port (a : Bool) : (s.setRedraw a).port = s.port := rfl

@[simp] theorem State.setFault_mem (a : FaultLatch) : (s.setFault a).mem = s.mem := rfl
@[simp] theorem State.setFault_v (a : FaultLatch) : (s.setFault a).v = s.v := rfl
@[simp] theorem State.setFault_i (a : FaultLatch) : (s.setFault a).i = s.i := rfl
@[simp] theorem State.setFault_pc (a : FaultLatch) : (s.setFault a).pc = s.pc := rfl
@[simp] theorem State.setFault_stack (a : FaultLatch) : (s.setFault a).stack = s.stack := rfl
@[simp] theorem State.setFault_sp (a : FaultLatch) : (s.setFault a).sp = s.sp := rfl
@[simp] theorem State.setFault_dt (a : FaultLatch) : (s.setFault a).dt = s.dt := rfl
@[simp] theorem State.setFault_st (a : FaultLatch) : (s.setFault a).st = s.st := rfl
@[simp] theorem State.setFault_keys (a : FaultLatch) : (s.setFault a).keys = s.keys := rfl
@[simp] theorem State.setFault_fb (a : FaultLatch) : (s.setFault a).fb = s.fb := rfl
@[simp] theorem State.setFault_redraw (a : FaultLatch) : (s.setFault a).redraw = s.redraw := rfl
@[simp] theorem State.setFault_fault (a : FaultLatch) : (s.setFault a).fault = a := rfl
@[simp] theorem State.setFault_port (a : FaultLatch) : (s.setFault a).port = s.port := rfl

@[simp] theorem State.setPort_mem (a : Port) : (s.setPort a).mem = s.mem := rfl
@[simp] theorem State.setPort_v (a : Port) : (s.setPort a).v = s.v := rfl
@[simp] theorem State.setPort_i (a : Port) : (s.setPort a).i = s.i := rfl
@[simp] theorem State.setPort_pc (a : Port) : (s.setPort a).pc = s.pc := rfl
@[simp] theorem State.setPort_stack (a : Port) : (s.setPort a).stack = s.stack := rfl
@[simp] theorem State.setPort_sp (a : Port) : (s.setPort a).sp = s.sp := rfl
@[simp] theorem State.setPort_dt (a : Port) : (s.setPort a).dt = s.dt := rfl
@[simp] theorem State.setPort_st (a : Port) : (s.setPort a).st = s.st := rfl
@[simp] theorem State.setPort_keys (a : Port) : (s.setPort a).keys = s.keys := rfl
@[simp] theorem State.setPort_fb (a : Port) : (s.setPort a).fb = s.fb := rfl
@[simp] theorem State.setPort_redraw (a : Port) : (s.setPort a).redraw = s.redraw := rfl
@[simp] theorem State.setPort_fault (a : Port) : (s.setPort a).fault = s.fault := rfl
@[simp] theorem State.setPort_port (a : Port) : (s.setPort a).port = a := rfl

/-! ## The composed updates -/

@[simp] theorem State.advance_mem : s.advance.mem = s.mem := rfl
@[simp] theorem State.advance_v : s.advance.v = s.v := rfl
@[simp] theorem State.advance_i : s.advance.i = s.i := rfl
@[simp] theorem State.advance_pc : s.advance.pc = s.npc := rfl
@[simp] theorem State.advance_stack : s.advance.stack = s.stack := rfl
@[simp] theorem State.advance_sp : s.advance.sp = s.sp := rfl
@[simp] theorem State.advance_dt : s.advance.dt = s.dt := rfl
@[simp] theorem State.advance_st : s.advance.st = s.st := rfl
@[simp] theorem State.advance_keys : s.advance.keys = s.keys := rfl
@[simp] theorem State.advance_fb : s.advance.fb = s.fb := rfl
@[simp] theorem State.advance_redraw : s.advance.redraw = s.redraw := rfl
@[simp] theorem State.advance_fault : s.advance.fault = s.fault := rfl
@[simp] theorem State.advance_port : s.advance.port = s.port := rfl

@[simp] theorem State.setV_mem (x : Reg) (b : Byte) : (s.setV x b).mem = s.mem := rfl
@[simp] theorem State.setV_v (x : Reg) (b : Byte) : (s.setV x b).v = s.v.set x.val b x.isLt := rfl
@[simp] theorem State.setV_i (x : Reg) (b : Byte) : (s.setV x b).i = s.i := rfl
@[simp] theorem State.setV_pc (x : Reg) (b : Byte) : (s.setV x b).pc = s.pc := rfl
@[simp] theorem State.setV_stack (x : Reg) (b : Byte) : (s.setV x b).stack = s.stack := rfl
@[simp] theorem State.setV_sp (x : Reg) (b : Byte) : (s.setV x b).sp = s.sp := rfl
@[simp] theorem State.setV_dt (x : Reg) (b : Byte) : (s.setV x b).dt = s.dt := rfl
@[simp] theorem State.setV_st (x : Reg) (b : Byte) : (s.setV x b).st = s.st := rfl
@[simp] theorem State.setV_keys (x : Reg) (b : Byte) : (s.setV x b).keys = s.keys := rfl
@[simp] theorem State.setV_fb (x : Reg) (b : Byte) : (s.setV x b).fb = s.fb := rfl
@[simp] theorem State.setV_redraw (x : Reg) (b : Byte) : (s.setV x b).redraw = s.redraw := rfl
@[simp] theorem State.setV_fault (x : Reg) (b : Byte) : (s.setV x b).fault = s.fault := rfl
@[simp] theorem State.setV_port (x : Reg) (b : Byte) : (s.setV x b).port = s.port := rfl

@[simp] theorem State.setVFlag_mem (x : Reg) (a b : Byte) : (s.setVFlag x a b).mem = s.mem := rfl
@[simp] theorem State.setVFlag_i (x : Reg) (a b : Byte) : (s.setVFlag x a b).i = s.i := rfl
@[simp] theorem State.setVFlag_pc (x : Reg) (a b : Byte) : (s.setVFlag x a b).pc = s.pc := rfl
@[simp] theorem State.setVFlag_stack (x : Reg) (a b : Byte) : (s.setVFlag x a b).stack = s.stack := rfl
@[simp] theorem State.setVFlag_sp (x : Reg) (a b : Byte) : (s.setVFlag x a b).sp = s.sp := rfl
@[simp] theorem State.setVFlag_dt (x : Reg) (a b : Byte) : (s.setVFlag x a b).dt = s.dt := rfl
@[simp] theorem State.setVFlag_st (x : Reg) (a b : Byte) : (s.setVFlag x a b).st = s.st := rfl
@[simp] theorem State.setVFlag_keys (x : Reg) (a b : Byte) : (s.setVFlag x a b).keys = s.keys := rfl
@[simp] theorem State.setVFlag_fb (x : Reg) (a b : Byte) : (s.setVFlag x a b).fb = s.fb := rfl
@[simp] theorem State.setVFlag_redraw (x : Reg) (a b : Byte) : (s.setVFlag x a b).redraw = s.redraw := rfl
@[simp] theorem State.setVFlag_fault (x : Reg) (a b : Byte) : (s.setVFlag x a b).fault = s.fault := rfl
@[simp] theorem State.setVFlag_port (x : Reg) (a b : Byte) : (s.setVFlag x a b).port = s.port := rfl

@[simp] theorem State.answer_mem (r : Result) : (s.answer r).mem = s.mem := rfl
@[simp] theorem State.answer_v (r : Result) : (s.answer r).v = s.v := rfl
@[simp] theorem State.answer_i (r : Result) : (s.answer r).i = s.i := rfl
@[simp] theorem State.answer_pc (r : Result) : (s.answer r).pc = s.pc := rfl
@[simp] theorem State.answer_stack (r : Result) : (s.answer r).stack = s.stack := rfl
@[simp] theorem State.answer_sp (r : Result) : (s.answer r).sp = s.sp := rfl
@[simp] theorem State.answer_dt (r : Result) : (s.answer r).dt = s.dt := rfl
@[simp] theorem State.answer_st (r : Result) : (s.answer r).st = s.st := rfl
@[simp] theorem State.answer_keys (r : Result) : (s.answer r).keys = s.keys := rfl
@[simp] theorem State.answer_fb (r : Result) : (s.answer r).fb = s.fb := rfl
@[simp] theorem State.answer_redraw (r : Result) : (s.answer r).redraw = s.redraw := rfl
@[simp] theorem State.answer_fault (r : Result) : (s.answer r).fault = s.fault := rfl
@[simp] theorem State.answer_port (r : Result) : (s.answer r).port = { s.port with result := r } := rfl

@[simp] theorem State.raise_mem (c : FaultCode) (ir info : Word) : (s.raise c ir info).mem = s.mem := rfl
@[simp] theorem State.raise_v (c : FaultCode) (ir info : Word) : (s.raise c ir info).v = s.v := rfl
@[simp] theorem State.raise_i (c : FaultCode) (ir info : Word) : (s.raise c ir info).i = s.i := rfl
@[simp] theorem State.raise_pc (c : FaultCode) (ir info : Word) : (s.raise c ir info).pc = s.pc := rfl
@[simp] theorem State.raise_stack (c : FaultCode) (ir info : Word) : (s.raise c ir info).stack = s.stack := rfl
@[simp] theorem State.raise_sp (c : FaultCode) (ir info : Word) : (s.raise c ir info).sp = s.sp := rfl
@[simp] theorem State.raise_dt (c : FaultCode) (ir info : Word) : (s.raise c ir info).dt = s.dt := rfl
@[simp] theorem State.raise_st (c : FaultCode) (ir info : Word) : (s.raise c ir info).st = s.st := rfl
@[simp] theorem State.raise_keys (c : FaultCode) (ir info : Word) : (s.raise c ir info).keys = s.keys := rfl
@[simp] theorem State.raise_fb (c : FaultCode) (ir info : Word) : (s.raise c ir info).fb = s.fb := rfl
@[simp] theorem State.raise_redraw (c : FaultCode) (ir info : Word) : (s.raise c ir info).redraw = s.redraw := rfl
@[simp] theorem State.raise_fault (c : FaultCode) (ir info : Word) : (s.raise c ir info).fault = ⟨true, c.number, s.pc, ir, info⟩ := rfl
@[simp] theorem State.raise_port (c : FaultCode) (ir info : Word) : (s.raise c ir info).port = s.port := rfl

@[simp] theorem State.report_mem (ir : Word) : (s.report ir).mem = s.mem := rfl
@[simp] theorem State.report_v (ir : Word) : (s.report ir).v = s.v := rfl
@[simp] theorem State.report_i (ir : Word) : (s.report ir).i = s.i := rfl
@[simp] theorem State.report_pc (ir : Word) : (s.report ir).pc = s.npc := rfl
@[simp] theorem State.report_stack (ir : Word) : (s.report ir).stack = s.stack := rfl
@[simp] theorem State.report_sp (ir : Word) : (s.report ir).sp = s.sp := rfl
@[simp] theorem State.report_dt (ir : Word) : (s.report ir).dt = s.dt := rfl
@[simp] theorem State.report_st (ir : Word) : (s.report ir).st = s.st := rfl
@[simp] theorem State.report_keys (ir : Word) : (s.report ir).keys = s.keys := rfl
@[simp] theorem State.report_fb (ir : Word) : (s.report ir).fb = s.fb := rfl
@[simp] theorem State.report_redraw (ir : Word) : (s.report ir).redraw = s.redraw := rfl
@[simp] theorem State.report_fault (ir : Word) : (s.report ir).fault = s.fault := rfl
@[simp] theorem State.report_port (ir : Word) : (s.report ir).port = { s.port with result := .stepped (some ⟨ir, s.pc⟩) } := rfl

@[simp] theorem State.begin_mem (r : Byte) : (s.begin r).mem = s.mem := rfl
@[simp] theorem State.begin_v (r : Byte) : (s.begin r).v = s.v := rfl
@[simp] theorem State.begin_i (r : Byte) : (s.begin r).i = s.i := rfl
@[simp] theorem State.begin_pc (r : Byte) : (s.begin r).pc = s.pc := rfl
@[simp] theorem State.begin_stack (r : Byte) : (s.begin r).stack = s.stack := rfl
@[simp] theorem State.begin_sp (r : Byte) : (s.begin r).sp = s.sp := rfl
@[simp] theorem State.begin_dt (r : Byte) : (s.begin r).dt = s.dt := rfl
@[simp] theorem State.begin_st (r : Byte) : (s.begin r).st = s.st := rfl
@[simp] theorem State.begin_keys (r : Byte) : (s.begin r).keys = s.keys := rfl
@[simp] theorem State.begin_fb (r : Byte) : (s.begin r).fb = s.fb := rfl
@[simp] theorem State.begin_redraw (r : Byte) : (s.begin r).redraw = s.redraw := rfl
@[simp] theorem State.begin_fault (r : Byte) : (s.begin r).fault = s.fault := rfl
@[simp] theorem State.begin_port (r : Byte) : (s.begin r).port = { s.port with rnd := r, result := .stepped none } := rfl

@[simp] theorem State.skipIf_mem (c : Bool) : (s.skipIf c).mem = s.mem := by cases c <;> rfl
@[simp] theorem State.skipIf_v (c : Bool) : (s.skipIf c).v = s.v := by cases c <;> rfl
@[simp] theorem State.skipIf_i (c : Bool) : (s.skipIf c).i = s.i := by cases c <;> rfl
@[simp] theorem State.skipIf_stack (c : Bool) : (s.skipIf c).stack = s.stack := by cases c <;> rfl
@[simp] theorem State.skipIf_sp (c : Bool) : (s.skipIf c).sp = s.sp := by cases c <;> rfl
@[simp] theorem State.skipIf_dt (c : Bool) : (s.skipIf c).dt = s.dt := by cases c <;> rfl
@[simp] theorem State.skipIf_st (c : Bool) : (s.skipIf c).st = s.st := by cases c <;> rfl
@[simp] theorem State.skipIf_keys (c : Bool) : (s.skipIf c).keys = s.keys := by cases c <;> rfl
@[simp] theorem State.skipIf_fb (c : Bool) : (s.skipIf c).fb = s.fb := by cases c <;> rfl
@[simp] theorem State.skipIf_redraw (c : Bool) : (s.skipIf c).redraw = s.redraw := by cases c <;> rfl
@[simp] theorem State.skipIf_fault (c : Bool) : (s.skipIf c).fault = s.fault := by cases c <;> rfl
@[simp] theorem State.skipIf_port (c : Bool) : (s.skipIf c).port = s.port := by cases c <;> rfl

theorem State.skipIf_pc (c : Bool) : (s.skipIf c).pc = if c then s.pc + 4 else s.pc + 2 := by
  cases c
  · rfl
  · show s.pc + 2 + 2 = s.pc + 4
    rw [BitVec.add_assoc]
    rfl

@[simp] theorem State.npc_eq : s.npc = s.pc + 2 := rfl

end Sys2Proof.Machine
end

