-- ==== Sys2Proof/Laws/Memory.lean ====
section
/-! SUPPORT. Memory: a read after a write, what a write leaves alone, and that every operation keeps the canonical
form. The read laws hold of every list of pairs, canonical or not. -/

namespace Sys2Proof.Machine

theorem Memory.read_forget_self (m : Memory) (a : Nat) : (m.forget a).read a = Memory.unlisted a := by
  induction m with
  | nil => rfl
  | cons c m ih =>
    by_cases h : c.1 = a
    · simpa [Memory.forget, h] using ih
    · simpa [Memory.forget, Memory.read, h] using ih

theorem Memory.read_forget_ne (m : Memory) {a b : Nat} (h : b ≠ a) : (m.forget a).read b = m.read b := by
  induction m with
  | nil => rfl
  | cons c m ih =>
    by_cases hc : c.1 = a
    · have : c.1 ≠ b := by omega
      simpa [Memory.forget, Memory.read, hc, Ne.symm h] using ih
    · by_cases hb : c.1 = b
      · simp [Memory.forget, Memory.read, hb, h]
      · simpa [Memory.forget, Memory.read, hc, hb] using ih

theorem Memory.forget_not_mem (m : Memory) (a : Nat) : ∀ c ∈ m.forget a, c.1 ≠ a := by
  intro c hc
  simpa using (List.mem_filter.mp hc).2

theorem Memory.read_place_self (a : Nat) (v : Byte) (m : Memory) (h : ∀ c ∈ m, c.1 ≠ a) :
    (Memory.place a v m).read a = v := by
  induction m with
  | nil => simp [Memory.place, Memory.read]
  | cons c m ih =>
    have hc := h c (by simp)
    by_cases hlt : a < c.1
    · simp [Memory.place, Memory.read, hlt]
    · simpa [Memory.place, Memory.read, hlt, hc] using ih fun d hd => h d (by simp [hd])

theorem Memory.read_place_ne (v : Byte) (m : Memory) {a b : Nat} (h : b ≠ a) :
    (Memory.place a v m).read b = m.read b := by
  induction m with
  | nil => simp [Memory.place, Memory.read, Ne.symm h]
  | cons c m ih =>
    by_cases hlt : a < c.1
    · simp [Memory.place, Memory.read, hlt, Ne.symm h]
    · simp [Memory.place, Memory.read, hlt, ih]

/-- A read after a write to the same address gives the value written (20_memory.md R48). -/
@[simp] theorem Memory.read_write_self (m : Memory) (a : Nat) (v : Byte) : (m.write a v).read a = v := by
  unfold Memory.write
  split
  · rw [Memory.read_forget_self]; exact Eq.symm ‹_›
  · exact Memory.read_place_self a v _ (m.forget_not_mem a)

/-- A write leaves every other address alone. -/
theorem Memory.read_write_ne (m : Memory) (v : Byte) {a b : Nat} (h : b ≠ a) : (m.write a v).read b = m.read b := by
  unfold Memory.write
  split
  · exact m.read_forget_ne h
  · rw [Memory.read_place_ne v _ h, m.read_forget_ne h]

theorem Memory.read_write (m : Memory) (a b : Nat) (v : Byte) :
    (m.write a v).read b = if b = a then v else m.read b := by
  split
  · subst_vars; simp
  · exact m.read_write_ne v ‹_›

/-- What consecutive writes do to every address. -/
theorem Memory.read_writeBytes (bs : List Byte) (m : Memory) (a b : Nat) :
    (m.writeBytes a bs).read b = if a ≤ b ∧ b < a + bs.length then bs.getD (b - a) 0 else m.read b := by
  induction bs generalizing m a with
  | nil => simp [Memory.writeBytes, show ¬(a ≤ b ∧ b < a) by omega]
  | cons v bs ih =>
    rw [Memory.writeBytes, ih, Memory.read_write]
    by_cases hb : b = a
    · subst hb; simp
    · by_cases h : a + 1 ≤ b ∧ b < a + 1 + bs.length
      · have h' : a ≤ b ∧ b < a + (v :: bs).length := by simp; omega
        obtain ⟨k, rfl⟩ : ∃ k, b = a + 1 + k := ⟨b - (a + 1), by omega⟩
        rw [if_pos h, if_pos h']
        simp [show a + 1 + k - a = k + 1 by omega]
      · have h' : ¬(a ≤ b ∧ b < a + (v :: bs).length) := by simp; omega
        rw [if_neg h, if_neg h', if_neg hb]

@[simp] theorem Memory.length_readBytes (m : Memory) (a n : Nat) : (m.readBytes a n).length = n := by
  induction n generalizing a with
  | zero => rfl
  | succ n ih => simp [Memory.readBytes, ih]

/-- The bytes a multi-byte read delivers. -/
theorem Memory.getD_readBytes (m : Memory) (a n k : Nat) (d : Byte) :
    (m.readBytes a n).getD k d = if k < n then m.read (a + k) else d := by
  induction n generalizing a k with
  | zero => simp [Memory.readBytes]
  | succ n ih =>
    cases k with
    | zero => simp [Memory.readBytes]
    | succ k =>
      rw [Memory.readBytes, List.getD_cons_succ, ih]
      simp [show a + 1 + k = a + (k + 1) by omega]

/-! ## The canonical form -/

theorem Memory.wf_nil : Memory.wf [] := ⟨List.Pairwise.nil, by simp⟩

theorem Memory.wf_forget {m : Memory} (h : m.wf) (a : Nat) : (m.forget a).wf :=
  ⟨h.1.filter _, fun c hc => h.2 c (List.mem_of_mem_filter hc)⟩

theorem Memory.mem_place {a : Nat} {v : Byte} {m : Memory} {c : Host.Cell} :
    c ∈ Memory.place a v m ↔ c = (a, v) ∨ c ∈ m := by
  induction m with
  | nil => simp [Memory.place]
  | cons d m ih =>
    by_cases h : a < d.1
    · simp [Memory.place, h]
    · simp only [Memory.place, h, if_false, List.mem_cons, ih]
      tauto

theorem Memory.wf_place {m : Memory} (h : m.wf) {a : Nat} {v : Byte} (ha : a < Config.memSize)
    (hv : v ≠ Memory.unlisted a) (hm : ∀ c ∈ m, c.1 ≠ a) : (Memory.place a v m).wf := by
  refine ⟨?_, fun c hc => ?_⟩
  · induction m with
    | nil => simp [Memory.place]
    | cons d m ih =>
      obtain ⟨hd, hp⟩ := List.pairwise_cons.mp h.1
      by_cases hlt : a < d.1
      · simp only [Memory.place, hlt, if_true]
        refine List.pairwise_cons.mpr ⟨fun c hc => ?_, h.1⟩
        rcases List.mem_cons.mp hc with rfl | hc
        · exact hlt
        · exact Nat.lt_trans hlt (hd c hc)
      · simp only [Memory.place, hlt, if_false]
        refine List.pairwise_cons.mpr ⟨fun c hc => ?_, ih ⟨hp, fun c hc => h.2 c (by simp [hc])⟩
          fun c hc => hm c (by simp [hc])⟩
        rcases Memory.mem_place.mp hc with rfl | hc
        · have := hm d (by simp)
          show d.1 < a
          omega
        · exact hd c hc
  · rcases Memory.mem_place.mp hc with rfl | hc
    · exact ⟨ha, hv⟩
    · exact h.2 c hc

/-- Writing one byte inside memory keeps the canonical form. -/
theorem Memory.wf_write {m : Memory} (h : m.wf) {a : Nat} (ha : a < Config.memSize) (v : Byte) :
    (m.write a v).wf := by
  unfold Memory.write
  split
  · exact Memory.wf_forget h a
  · exact Memory.wf_place (Memory.wf_forget h a) ha ‹_› (m.forget_not_mem a)

/-- Writing consecutive bytes inside memory keeps the canonical form. -/
theorem Memory.wf_writeBytes (bs : List Byte) {m : Memory} (h : m.wf) {a : Nat}
    (ha : a + bs.length ≤ Config.memSize) : (m.writeBytes a bs).wf := by
  induction bs generalizing m a with
  | nil => exact h
  | cons v bs ih =>
    simp only [List.length_cons] at ha
    exact ih (Memory.wf_write h (by omega) v) (by omega)

theorem State.reset_mem_wf : State.reset.mem.wf := Memory.wf_nil

end Sys2Proof.Machine
end

