-- ==== Sys2Proof/Laws/Ops.lean ====
section
/-! SUPPORT. What each shared operation does, said once: registers, the call stack, the fetch, the range check, block
transfers, the key choice, the draw loops. -/

namespace Sys2Proof.Machine

variable (s : State)

/-! ## V registers -/

theorem State.getV_setV (x r : Reg) (b : Byte) : (s.setV x b).getV r = if r = x then b else s.getV r := by
  simp only [State.getV, State.setV_v, Vector.get_eq_getElem, Vector.getElem_set, Fin.ext_iff, eq_comm]

theorem State.getV_setVFlag (x r : Reg) (a b : Byte) :
    (s.setVFlag x a b).getV r = if r = VF then b else if r = x then a else s.getV r := by
  rw [State.setVFlag, State.getV_setV, State.getV_setV]

theorem State.getV_loadRegs (bs : List Byte) (r : Reg) :
    (s.loadRegs bs).getV r = bs.getD r.val (s.getV r) := by
  simp [State.loadRegs, State.getV, Vector.get_eq_getElem, Vector.getElem_ofFn]

@[simp] theorem State.getV_advance (r : Reg) : s.advance.getV r = s.getV r := rfl

@[simp] theorem State.getV_skipIf (c : Bool) (r : Reg) : (s.skipIf c).getV r = s.getV r := by
  simp only [State.getV, State.skipIf_v]

@[simp] theorem State.readByte_skipIf (c : Bool) (a : Nat) : (s.skipIf c).readByte a = s.readByte a := by
  simp only [State.readByte, State.skipIf_mem]

theorem State.getV_congr {t : State} (h : t.v = s.v) (r : Reg) : t.getV r = s.getV r := by
  simp only [State.getV, h]

@[simp] theorem State.length_lowRegs (x : Reg) : (s.lowRegs x.val).length = x.val := by
  simp [State.lowRegs]

theorem State.getD_lowRegs (x : Reg) (k : Nat) (h : k < x.val) :
    (s.lowRegs x.val).getD k 0 = s.getV ⟨k, Nat.lt_trans h x.isLt⟩ := by
  simp [State.lowRegs, State.getV, Vector.get_eq_getElem, List.getD_eq_getElem?_getD, h]

/-! ## The call stack -/

theorem State.push_eq_none (w : Word) : s.push w = none ↔ s.sp.val = 16 := by
  unfold State.push
  have := s.sp.isLt
  split
  · simp; omega
  · simp; omega

theorem State.push_eq_some {w : Word} {t : State} (h : s.push w = some t) :
    ∃ hlt : s.sp.val < 16, t = (s.setStack (s.stack.set s.sp.val w hlt)).setSp ⟨s.sp.val + 1, by omega⟩ := by
  unfold State.push at h
  split at h
  · exact ⟨‹_›, by simpa using h.symm⟩
  · cases h

theorem State.pop_eq_none : s.pop = none ↔ s.sp.val = 0 := by
  unfold State.pop
  split
  · simp; omega
  · simp; omega

theorem State.pop_eq_some {w : Word} {t : State} (h : s.pop = some (w, t)) :
    ∃ hlt : 0 < s.sp.val, w = s.stack[s.sp.val - 1]'(by omega) ∧ t = s.setSp ⟨s.sp.val - 1, by omega⟩ := by
  unfold State.pop at h
  split at h
  · simp only [Option.some.injEq, Prod.mk.injEq] at h
    exact ⟨‹_›, h.1.symm, h.2.symm⟩
  · cases h

/-! ## The fetch -/

theorem State.fetch_eq_none : s.fetch = none ↔ s.pc.toNat > 0x0FFE := by
  unfold State.fetch
  split <;> simp_all [Config.lastFetch]

theorem State.fetch_eq_some (h : s.pc.toNat ≤ 0x0FFE) :
    s.fetch = some (wordOfBytes (s.readByte s.pc.toNat) (s.readByte (s.pc.toNat + 1))) := by
  unfold State.fetch
  rw [if_neg (by simp [Config.lastFetch]; omega)]

/-! ## The range check (43_block_transfer.md R116) -/

theorem State.badDataAddr_eq_none (count : Nat) :
    s.badDataAddr count = none ↔ ∀ k, k < count → s.dataAddr k < 4096 := by
  simp only [State.badDataAddr, List.find?_eq_none, List.mem_map, List.mem_range, decide_eq_true_eq, Nat.not_le,
    forall_exists_index, and_imp, forall_apply_eq_imp_iff₂]
  rfl

/-- The lowest offending address is `max(I, 4096)`, and there is one as soon as the last address is out of range. -/
theorem State.badDataAddr_eq (count : Nat) :
    s.badDataAddr count =
      if 1 ≤ count ∧ s.i.toNat + count - 1 ≥ 4096 then some (max s.i.toNat 4096) else none := by
  split
  · rename_i h
    unfold State.badDataAddr
    rw [List.find?_eq_some_iff_append]
    obtain ⟨k, hk⟩ : ∃ k, k = max s.i.toNat 4096 - s.i.toNat := ⟨_, rfl⟩
    have hlt : k < count := by omega
    refine ⟨by simp [Config.memSize], (List.range k).map s.dataAddr,
      ((List.range (count - k - 1)).map (· + (k + 1))).map s.dataAddr, ?_, ?_⟩
    · have h1 : List.range count = List.range k ++ k :: (List.range (count - k - 1)).map (· + (k + 1)) := by
        obtain ⟨d, rfl⟩ : ∃ d, count = k + (d + 1) := ⟨count - k - 1, by omega⟩
        rw [List.range_add, List.range_succ_eq_map, List.map_cons, List.map_map]
        simp only [Nat.add_zero, show k + (d + 1) - k - 1 = d by omega]
        congr 2
        apply List.map_congr_left
        intro a _
        simp; omega
      rw [h1, List.map_append, List.map_cons]
      congr 2
      simp only [State.dataAddr]; omega
    · intro a ha
      obtain ⟨j, hj, rfl⟩ := List.mem_map.mp ha
      have := List.mem_range.mp hj
      have : ¬Config.memSize ≤ s.dataAddr j := by simp only [State.dataAddr, Config.memSize]; omega
      simpa using this
  · rename_i h
    rw [State.badDataAddr_eq_none]
    intro k hk
    simp only [State.dataAddr]; omega

/-! ## Block transfers -/

@[simp] theorem State.length_dataBytes (n : Nat) : (s.dataBytes n).length = n := by simp [State.dataBytes]

theorem State.getD_dataBytes (n k : Nat) (d : Byte) :
    (s.dataBytes n).getD k d = if k < n then s.readByte (s.dataAddr k) else d := by
  simp only [State.dataBytes, Memory.getD_readBytes, State.readByte, State.dataAddr]

theorem State.readByte_storeBytes (bs : List Byte) (a : Nat) :
    (s.storeBytes bs).readByte a =
      if s.i.toNat ≤ a ∧ a < s.i.toNat + bs.length then bs.getD (a - s.i.toNat) 0 else s.readByte a := by
  simp only [State.readByte, State.storeBytes, State.setMem_mem, Memory.read_writeBytes]

/-! ## The key choice (47_input.md R134) -/

theorem lowestKey_pressed {m : Word} (h : m ≠ 0) : m.getLsbD (lowestKey m).val = true := by
  unfold lowestKey
  cases hf : (List.finRange 16).find? fun j => m.getLsbD j.val with
  | some j => exact List.find?_some (p := fun j : Fin 16 => m.getLsbD j.val) hf
  | none =>
    exfalso
    apply h
    apply BitVec.eq_of_getLsbD_eq
    intro i hi
    have := List.find?_eq_none.mp hf ⟨i, hi⟩ (List.mem_finRange _)
    simpa using this

/-- `KEY_PICK` gives a pressed key. -/
theorem keyPick_pressed {m : Word} (h : m ≠ 0) : m.getLsbD (keyPick m).val = true := by
  unfold keyPick
  simp only
  split
  · exact lowestKey_pressed h
  · split
    · assumption
    · exact lowestKey_pressed h

/-! ## The draw loops (45_display.md R120) -/

theorem FrameBuffer.pixel_setPixel (f : FrameBuffer) (y y' : Fin 32) (x x' : Fin 64) (b : Bool) :
    (f.setPixel y x b).pixel y' x' = if y' = y ∧ x' = x then b else f.pixel y' x' := by
  simp only [FrameBuffer.pixel, FrameBuffer.setPixel, Vector.get_eq_getElem, Vector.getElem_set, Fin.ext_iff]
  by_cases hy : y.val = y'.val
  · have hy' : y'.val = y.val := hy.symm
    by_cases hx : x.val = x'.val
    · simp [hy, hx]
    · simp [hy, hx, Ne.symm hx]
  · simp [hy, Ne.symm hy]

theorem FrameBuffer.ext_pixel {f g : FrameBuffer} (h : ∀ y x, f.pixel y x = g.pixel y x) : f = g := by
  apply Vector.ext
  intro y hy
  apply Vector.ext
  intro x hx
  exact h ⟨y, hy⟩ ⟨x, hx⟩

theorem drawColumn_inj (vx : Byte) {c d : Nat} (hc : c < 64) (hd : d < 64) (h : drawColumn vx c = drawColumn vx d) :
    c = d := by
  simp only [drawColumn, Fin.ofNat, Fin.mk.injEq] at h
  omega

theorem drawLine_inj (vy : Byte) {r q : Nat} (hr : r < 32) (hq : q < 32) (h : drawLine vy r = drawLine vy q) : r = q := by
  simp only [drawLine, Fin.ofNat, Fin.mk.injEq] at h
  omega

theorem togglePixel_pixel (y y' : Fin 32) (x x' : Fin 64) (p : Canvas) :
    (togglePixel y x p).1.pixel y' x' = (p.1.pixel y' x' ^^ decide (y' = y ∧ x' = x)) := by
  simp only [togglePixel, FrameBuffer.pixel_setPixel]
  by_cases h : y' = y ∧ x' = x
  · obtain ⟨rfl, rfl⟩ := h; simp
  · simp [h]

/-- The first `m` columns of a row: each cell under a 1 bit is toggled once, and `collision` is set when one was on. -/
theorem drawRow_columns (vx vy : Byte) (r : Nat) (b : Byte) (p : Canvas) (m : Nat) (hm : m ≤ 8) :
    let q := (List.range m).foldl
      (fun p c => if b.getLsbD (7 - c) then togglePixel (drawLine vy r) (drawColumn vx c) p else p) p
    (∀ y x, q.1.pixel y x =
      (p.1.pixel y x ^^ decide (∃ c < m, y = drawLine vy r ∧ x = drawColumn vx c ∧ b.getLsbD (7 - c) = true))) ∧
    (q.2 = true ↔ p.2 = true ∨ ∃ c < m, b.getLsbD (7 - c) = true ∧
      p.1.pixel (drawLine vy r) (drawColumn vx c) = true) := by
  induction m with
  | zero => simp
  | succ m ih =>
    obtain ⟨h1, h2⟩ := ih (by omega)
    simp only [List.range_succ, List.foldl_append, List.foldl_cons, List.foldl_nil]
    generalize (List.range m).foldl
      (fun p c => if b.getLsbD (7 - c) then togglePixel (drawLine vy r) (drawColumn vx c) p else p) p = q at h1 h2
    by_cases hb : b.getLsbD (7 - m) = true
    · simp only [hb, if_true]
      refine ⟨fun y x => ?_, ?_⟩
      · rw [togglePixel_pixel, h1, Bool.xor_assoc]
        congr 1
        by_cases hx : y = drawLine vy r ∧ x = drawColumn vx m
        · have hn : ¬∃ c < m, y = drawLine vy r ∧ x = drawColumn vx c ∧ b.getLsbD (7 - c) = true := by
            rintro ⟨c, hc, -, hxc, -⟩
            have := drawColumn_inj vx (by omega) (by omega) (hx.2.symm.trans hxc)
            omega
          have hy : ∃ c < m + 1, y = drawLine vy r ∧ x = drawColumn vx c ∧ b.getLsbD (7 - c) = true :=
            ⟨m, by omega, hx.1, hx.2, hb⟩
          rw [decide_eq_false hn, decide_eq_true hy, decide_eq_true hx, Bool.false_xor]
        · have : (∃ c < m + 1, y = drawLine vy r ∧ x = drawColumn vx c ∧ b.getLsbD (7 - c) = true) ↔
              ∃ c < m, y = drawLine vy r ∧ x = drawColumn vx c ∧ b.getLsbD (7 - c) = true := by
            constructor
            · rintro ⟨c, hc, hy, hxc, hbc⟩
              rcases Nat.lt_succ_iff_lt_or_eq.mp hc with hc | rfl
              · exact ⟨c, hc, hy, hxc, hbc⟩
              · exact absurd ⟨hy, hxc⟩ hx
            · rintro ⟨c, hc, h⟩
              exact ⟨c, by omega, h⟩
          simp only [this, hx, decide_false, Bool.xor_false]
      · have hn : ¬∃ c < m, drawLine vy r = drawLine vy r ∧ drawColumn vx m = drawColumn vx c ∧
            b.getLsbD (7 - c) = true := by
          rintro ⟨c, hc, -, hxc, -⟩
          have := drawColumn_inj vx (by omega) (by omega) hxc
          omega
        have e : q.1.pixel (drawLine vy r) (drawColumn vx m) = p.1.pixel (drawLine vy r) (drawColumn vx m) := by
          rw [h1, decide_eq_false hn, Bool.xor_false]
        simp only [togglePixel, Bool.or_eq_true, h2, e]
        constructor
        · rintro ((h | ⟨c, hc, h⟩) | h)
          · exact .inl h
          · exact .inr ⟨c, by omega, h⟩
          · exact .inr ⟨m, by omega, hb, h⟩
        · rintro (h | ⟨c, hc, h⟩)
          · exact .inl (.inl h)
          · rcases Nat.lt_succ_iff_lt_or_eq.mp hc with hc | rfl
            · exact .inl (.inr ⟨c, hc, h⟩)
            · exact .inr h.2
    · have step : ∀ P : Nat → Prop, (∃ c < m + 1, P c ∧ b.getLsbD (7 - c) = true) ↔
          ∃ c < m, P c ∧ b.getLsbD (7 - c) = true := by
        intro P
        constructor
        · rintro ⟨c, hc, h⟩
          rcases Nat.lt_succ_iff_lt_or_eq.mp hc with hc | rfl
          · exact ⟨c, hc, h⟩
          · exact absurd h.2 hb
        · rintro ⟨c, hc, h⟩
          exact ⟨c, by omega, h⟩
      simp only [hb, Bool.false_eq_true, if_false]
      refine ⟨fun y x => ?_, ?_⟩
      · rw [h1]
        have := step fun c => y = drawLine vy r ∧ x = drawColumn vx c
        simp only [and_assoc] at this
        simp only [this]
      · rw [h2]
        have := step fun c => p.1.pixel (drawLine vy r) (drawColumn vx c) = true
        simp only [and_comm (a := b.getLsbD _ = true), this]

/-- The sprite `bs`, drawn from row `r` on, has a 1 bit over the cell. -/
def spriteHits (vx vy : Byte) (r : Nat) (bs : List Byte) (y : Fin 32) (x : Fin 64) : Prop :=
  ∃ k c, k < bs.length ∧ c < 8 ∧ y = drawLine vy (r + k) ∧ x = drawColumn vx c ∧ (bs.getD k 0).getLsbD (7 - c) = true

theorem spriteHits_cons (vx vy : Byte) (r : Nat) (b : Byte) (bs : List Byte) (y : Fin 32) (x : Fin 64) :
    spriteHits vx vy r (b :: bs) y x ↔
      (∃ c < 8, y = drawLine vy r ∧ x = drawColumn vx c ∧ b.getLsbD (7 - c) = true) ∨
        spriteHits vx vy (r + 1) bs y x := by
  constructor
  · rintro ⟨k, c, hk, hc, hy, hx, hb⟩
    cases k with
    | zero => exact .inl ⟨c, hc, hy, hx, hb⟩
    | succ k =>
      exact .inr ⟨k, c, by simpa using hk, hc, by rw [hy, Nat.add_assoc, Nat.add_comm 1], hx, hb⟩
  · rintro (⟨c, hc, hy, hx, hb⟩ | ⟨k, c, hk, hc, hy, hx, hb⟩)
    · exact ⟨0, c, by simp, hc, hy, hx, hb⟩
    · exact ⟨k + 1, c, by simpa using hk, hc, by rw [hy, Nat.add_assoc, Nat.add_comm 1], hx, hb⟩

open Classical in
/-- What the draw loops do: a cell under a 1 bit is toggled, once; every other cell is kept; `collision` is set exactly
when a toggled cell was on. -/
theorem drawRows_spec (vx vy : Byte) (bs : List Byte) (r : Nat) (p : Canvas) (h : r + bs.length ≤ 32) :
    (∀ y x, (drawRows vx vy r bs p).1.pixel y x = (p.1.pixel y x ^^ decide (spriteHits vx vy r bs y x))) ∧
    ((drawRows vx vy r bs p).2 = true ↔
      p.2 = true ∨ ∃ y x, spriteHits vx vy r bs y x ∧ p.1.pixel y x = true) := by
  induction bs generalizing r p with
  | nil => simp [drawRows, spriteHits]
  | cons b bs ih =>
    simp only [List.length_cons] at h
    obtain ⟨h1, h2⟩ := drawRow_columns vx vy r b p 8 (Nat.le_refl 8)
    obtain ⟨h3, h4⟩ := ih (r + 1) (drawRow vx vy r b p) (by omega)
    have hd : ∀ y x, spriteHits vx vy (r + 1) bs y x →
        ¬∃ c < 8, y = drawLine vy r ∧ x = drawColumn vx c ∧ b.getLsbD (7 - c) = true := by
      rintro y x ⟨k, c, hk, -, hy, -⟩ ⟨d, -, hy', -⟩
      have := drawLine_inj vy (by omega) (by omega) (hy'.symm.trans hy)
      omega
    refine ⟨fun y x => ?_, ?_⟩
    · rw [drawRows, h3, drawRow, h1, Bool.xor_assoc]
      congr 1
      by_cases hs : spriteHits vx vy (r + 1) bs y x
      · simp only [spriteHits_cons, hd y x hs, hs, or_true, decide_true, decide_false, Bool.false_xor]
      · simp only [spriteHits_cons, hs, or_false, decide_false, Bool.xor_false]
    · rw [drawRows, h4, drawRow, h2, or_assoc]
      refine or_congr_right ?_
      constructor
      · rintro (⟨c, hc, hb, hp⟩ | ⟨y, x, hs, hp⟩)
        · exact ⟨_, _, (spriteHits_cons ..).mpr (.inl ⟨c, hc, rfl, rfl, hb⟩), hp⟩
        · rw [h1] at hp
          refine ⟨y, x, (spriteHits_cons ..).mpr (.inr hs), ?_⟩
          simpa only [hd y x hs, decide_false, Bool.xor_false] using hp
      · rintro ⟨y, x, hs, hp⟩
        rcases (spriteHits_cons ..).mp hs with ⟨c, hc, rfl, rfl, hb⟩ | hs
        · exact .inl ⟨c, hc, hb, hp⟩
        · refine .inr ⟨y, x, hs, ?_⟩
          rw [h1]
          simpa only [hd y x hs, decide_false, Bool.xor_false] using hp

end Sys2Proof.Machine
end

