-- ==== Sys2Proof/Laws/Exec.lean ====
section
/-! SUPPORT. `exec` on the instructions that can fault or wait, one equation per case of their rule; and, once for all
instructions, what an executed instruction changes. -/

namespace Sys2Proof.Machine

variable (s : State)

/-! ## The cases of the instructions that do not always do the same -/

theorem exec_ret_empty (g : Nibble) (h : s.sp.val = 0) :
    exec (.ret g) s = .next (s.raise .stackUnderflow (encode (.ret g)) 0) := by
  show execRet g s = _
  rw [execRet, (State.pop_eq_none s).mpr h]
  simp [h]

theorem exec_ret_pop (g : Nibble) (h : 0 < s.sp.val) :
    exec (.ret g) s =
      .next ((s.setSp ⟨s.sp.val - 1, by omega⟩).setPc (s.stack.get ⟨s.sp.val - 1, by omega⟩)) := by
  show execRet g s = _
  simp only [execRet, State.pop, dif_pos h]
  rfl

theorem exec_call_full (a : Addr) (h : s.sp.val = 16) :
    exec (.callAddr a) s = .next (s.raise .stackOverflow (encode (.callAddr a)) 16) := by
  show execCallAddr a s = _
  rw [execCallAddr, (State.push_eq_none s _).mpr h]
  simp [h]

theorem exec_call_push (a : Addr) (h : s.sp.val < 16) :
    exec (.callAddr a) s =
      .next (((s.setStack (s.stack.set s.sp.val (s.pc + 2) h)).setSp ⟨s.sp.val + 1, by omega⟩).setPc (zextAddr a)) := by
  show execCallAddr a s = _
  simp only [execCallAddr, State.push, dif_pos h]
  rfl

theorem exec_ldBVx_out (x : Reg) {a : Nat} (h : s.badDataAddr 3 = some a) :
    exec (.ldBVx x) s = .next (s.raise .dataRange (encode (.ldBVx x)) (BitVec.ofNat 16 a)) := by
  show execLdBVx x s = _
  rw [execLdBVx, h]

theorem exec_ldBVx_in (x : Reg) (h : s.badDataAddr 3 = none) :
    exec (.ldBVx x) s = .next (s.storeBytes (decimalDigits (s.getV x))).advance := by
  show execLdBVx x s = _
  rw [execLdBVx, h]

theorem exec_ldMemIVx_out (x : Reg) {a : Nat} (h : s.badDataAddr x.val = some a) :
    exec (.ldMemIVx x) s = .next (s.raise .dataRange (encode (.ldMemIVx x)) (BitVec.ofNat 16 a)) := by
  show execLdMemIVx x s = _
  rw [execLdMemIVx, h]

theorem exec_ldMemIVx_in (x : Reg) (h : s.badDataAddr x.val = none) :
    exec (.ldMemIVx x) s = .next (s.storeBytes (s.lowRegs x.val)).advance := by
  show execLdMemIVx x s = _
  rw [execLdMemIVx, h]

theorem exec_ldVxMemI_out (x : Reg) {a : Nat} (h : s.badDataAddr x.val = some a) :
    exec (.ldVxMemI x) s = .next (s.raise .dataRange (encode (.ldVxMemI x)) (BitVec.ofNat 16 a)) := by
  show execLdVxMemI x s = _
  rw [execLdVxMemI, h]

theorem exec_ldVxMemI_in (x : Reg) (h : s.badDataAddr x.val = none) :
    exec (.ldVxMemI x) s = .next (s.loadRegs (s.dataBytes x.val)).advance := by
  show execLdVxMemI x s = _
  rw [execLdVxMemI, h]

theorem exec_drw_out (x y : Reg) (n : Nibble) {a : Nat} (h : s.badDataAddr n.toNat = some a) :
    exec (.drwVxVyNibble x y n) s =
      .next (s.raise .dataRange (encode (.drwVxVyNibble x y n)) (BitVec.ofNat 16 a)) := by
  show execDrwVxVyNibble x y n s = _
  rw [execDrwVxVyNibble, h]

theorem exec_drw_in (x y : Reg) (n : Nibble) (h : s.badDataAddr n.toNat = none) :
    exec (.drwVxVyNibble x y n) s =
      .next (((s.setFb (drawRows (s.getV x) (s.getV y) 0 (s.dataBytes n.toNat) (s.fb, false)).1).setV VF
        (flagByte (drawRows (s.getV x) (s.getV y) 0 (s.dataBytes n.toNat) (s.fb, false)).2)).setRedraw true).advance := by
  show execDrwVxVyNibble x y n s = _
  rw [execDrwVxVyNibble, h]

theorem exec_skp_out (x : Reg) (h : (s.getV x).toNat > 15) :
    exec (.skpVx x) s = .next (s.raise .keyIndexRange (encode (.skpVx x)) (zextByte (s.getV x))) :=
  if_pos h

theorem exec_skp_in (x : Reg) (h : (s.getV x).toNat ≤ 15) :
    exec (.skpVx x) s = .next (s.skipIf (s.key (s.getV x).toNat)) :=
  if_neg (Nat.not_lt.mpr h)

theorem exec_sknp_out (x : Reg) (h : (s.getV x).toNat > 15) :
    exec (.sknpVx x) s = .next (s.raise .keyIndexRange (encode (.sknpVx x)) (zextByte (s.getV x))) :=
  if_pos h

theorem exec_sknp_in (x : Reg) (h : (s.getV x).toNat ≤ 15) :
    exec (.sknpVx x) s = .next (s.skipIf (!s.key (s.getV x).toNat)) :=
  if_neg (Nat.not_lt.mpr h)

theorem exec_ldVxK_wait (x : Reg) (h : s.keys = 0) : exec (.ldVxK x) s = .next s := if_pos h

theorem exec_ldVxK_take (x : Reg) (h : s.keys ≠ 0) :
    exec (.ldVxK x) s = .next (s.setV x (BitVec.ofNat 8 (keyPick s.keys).val)).advance := if_neg h

/-- The cells `DRW` draws over, in the terms of the draw loops' law `drawRows_spec`. -/
theorem State.spriteCovers_iff (x y : Reg) (n : Nibble) (py : Fin 32) (px : Fin 64) :
    s.spriteCovers x y n py px ↔ spriteHits (s.getV x) (s.getV y) 0 (s.dataBytes n.toNat) py px := by
  constructor
  · rintro ⟨r, c, hr, hc, hy, hx, hb⟩
    refine ⟨r, c, by simpa using hr, hc, Fin.ext ?_, Fin.ext hx, ?_⟩
    · rw [hy, Nat.zero_add]; rfl
    · rw [State.getD_dataBytes, if_pos hr]; exact hb
  · rintro ⟨r, c, hr, hc, rfl, rfl, hb⟩
    rw [State.length_dataBytes] at hr
    rw [State.getD_dataBytes, if_pos hr] at hb
    exact ⟨r, c, hr, hc, by rw [Nat.zero_add]; rfl, rfl, hb⟩

/-- The fault table reads `I`, the V registers and `sp` only: what a halted core keeps. -/
theorem faultOf_congr {t : State} (hi : t.i = s.i) (hv : t.v = s.v) (hsp : t.sp = s.sp) (i : Instr) :
    faultOf i t = faultOf i s := by
  cases s
  cases t
  cases hi
  cases hv
  cases hsp
  cases i <;> rfl

/-! ## What an executed instruction changes, for all instructions at once -/

/-- What an instruction that does not fault may change. -/
def changesOf (i : Instr) (s : State) : Changes :=
  match i with
  | .cls _ => { pc := true, fb := true, redraw := true }
  | .ret _ => { pc := true, sp := true }
  | .sysAddr _ => { pc := true, result := true }
  | .callAddr _ => { slots := (List.finRange 16).filter (fun j => j.val == s.sp.val), pc := true, sp := true }
  | .addVxVy x _ => { regs := [x, VF], pc := true }
  | .subVxVy x _ => { regs := [x, VF], pc := true }
  | .shrVx x _ => { regs := [x, VF], pc := true }
  | .subnVxVy x _ => { regs := [x, VF], pc := true }
  | .shlVx x _ => { regs := [x, VF], pc := true }
  | .drwVxVyNibble _ _ _ => { regs := [VF], pc := true, fb := true, redraw := true }
  | .ldVxByte x _ => { regs := [x], pc := true }
  | .addVxByte x _ => { regs := [x], pc := true }
  | .ldVxVy x _ => { regs := [x], pc := true }
  | .orVxVy x _ => { regs := [x], pc := true }
  | .andVxVy x _ => { regs := [x], pc := true }
  | .xorVxVy x _ => { regs := [x], pc := true }
  | .rndVxByte x _ => { regs := [x], pc := true }
  | .ldVxDt x => { regs := [x], pc := true }
  | .ldVxK x => { regs := [x], pc := true }
  | .ldVxMemI x => { regs := (List.finRange 16).filter (fun k => k.val < x.val), pc := true }
  | .ldIAddr _ => { i := true, pc := true }
  | .addIVx _ => { i := true, pc := true }
  | .ldFVx _ => { i := true, pc := true }
  | .ldBVx _ => { bytes := s.dataAddrs 3, pc := true }
  | .ldMemIVx x => { bytes := s.dataAddrs x.val, pc := true }
  | .ldDtVx _ => { dt := true, pc := true }
  | .ldStVx _ => { st := true, pc := true }
  | .jpAddr _ => { pc := true }
  | .jpV0Addr _ => { pc := true }
  | .seVxByte _ _ => { pc := true }
  | .sneVxByte _ _ => { pc := true }
  | .seVxVy _ _ _ => { pc := true }
  | .sneVxVy _ _ _ => { pc := true }
  | .skpVx _ => { pc := true }
  | .sknpVx _ => { pc := true }

theorem Frame.refl (c : Changes) : Frame c s s := by constructor <;> intros <;> rfl

/-- A register write and the advance. -/
theorem Frame.ofSetV (x : Reg) (b : Byte) : Frame { regs := [x], pc := true } s (s.setV x b).advance := by
  constructor
  case regs =>
    intro r hr
    rw [State.getV_advance, State.getV_setV, if_neg (by simpa using hr)]
  all_goals intros; first | rfl | contradiction

/-- The two writes of a flag-writing instruction and the advance. -/
theorem Frame.ofSetVFlag (x : Reg) (a b : Byte) : Frame { regs := [x, VF], pc := true } s (s.setVFlag x a b).advance := by
  constructor
  case regs =>
    intro r hr
    simp only [List.mem_cons, List.not_mem_nil, or_false, not_or] at hr
    rw [State.getV_advance, State.getV_setVFlag, if_neg hr.2, if_neg hr.1]
  all_goals intros; first | rfl | contradiction

theorem Frame.ofSkipIf (c : Bool) : Frame { pc := true } s (s.skipIf c) := by
  cases c <;> (constructor <;> intros <;> first | rfl | contradiction)

/-- Bytes stored from `I` up and the advance. -/
theorem Frame.ofStoreBytes (bs : List Byte) (n : Nat) (h : bs.length = n) :
    Frame { bytes := s.dataAddrs n, pc := true } s (s.storeBytes bs).advance := by
  constructor
  case bytes =>
    intro a ha
    show (s.storeBytes bs).readByte a = _
    rw [State.readByte_storeBytes, if_neg]
    rintro ⟨h1, h2⟩
    exact ha (List.mem_map.mpr ⟨a - s.i.toNat, List.mem_range.mpr (by omega), by simp only [State.dataAddr]; omega⟩)
  all_goals intros; first | rfl | contradiction

/-- A register file replaced, but for the registers not named, and the advance. -/
theorem Frame.ofSetRegs (v : Vector Byte 16) (regs : List Reg) (h : ∀ r, r ∉ regs → v.get r = s.getV r) :
    Frame { regs := regs, pc := true } s (s.setRegs v).advance := by
  constructor
  case regs => exact h
  all_goals intros; first | rfl | contradiction

theorem Frame.ofLoadRegs (n : Nat) :
    Frame { regs := (List.finRange 16).filter (fun k => k.val < n), pc := true } s
      (s.loadRegs (s.dataBytes n)).advance := by
  refine Frame.ofSetRegs s _ _ fun r hr => ?_
  have : ¬r.val < n := by simpa using hr
  exact (State.getV_loadRegs s _ r).trans ((State.getD_dataBytes s n r.val _).trans (if_neg this))

/-- What an executed instruction can do, said once: it raises a fault, and nothing but the latch changes, or nothing
changes but what `changesOf` names. -/
theorem exec_frame (i : Instr) : ∃ t, exec i s = .next t ∧
    ((∃ c ir info, t = s.raise c ir info) ∨ Frame (changesOf i s) s t) := by
  cases i with
  | cls => exact ⟨_, rfl, .inr (by constructor <;> intros <;> first | rfl | contradiction)⟩
  | ret g =>
    rcases Nat.eq_zero_or_pos s.sp.val with h | h
    · exact ⟨_, exec_ret_empty s g h, .inl ⟨_, _, _, rfl⟩⟩
    · exact ⟨_, exec_ret_pop s g h, .inr (by constructor <;> intros <;> first | rfl | contradiction)⟩
  | sysAddr => exact ⟨_, rfl, .inr (by constructor <;> intros <;> first | rfl | contradiction)⟩
  | jpAddr => exact ⟨_, rfl, .inr (by constructor <;> intros <;> first | rfl | contradiction)⟩
  | callAddr a =>
    rcases Nat.lt_or_ge s.sp.val 16 with h | h
    · refine ⟨_, exec_call_push s a h, .inr ?_⟩
      constructor
      case slots =>
        intro j hj
        have : ¬s.sp.val = j.val := by
          intro e
          exact hj (List.mem_filter.mpr ⟨List.mem_finRange _, by simp [e]⟩)
        simp [Vector.get_eq_getElem, this]
      all_goals intros; first | rfl | contradiction
    · exact ⟨_, exec_call_full s a (by have := s.sp.isLt; omega), .inl ⟨_, _, _, rfl⟩⟩
  | seVxByte => exact ⟨_, rfl, .inr (Frame.ofSkipIf s _)⟩
  | sneVxByte => exact ⟨_, rfl, .inr (Frame.ofSkipIf s _)⟩
  | seVxVy => exact ⟨_, rfl, .inr (Frame.ofSkipIf s _)⟩
  | sneVxVy => exact ⟨_, rfl, .inr (Frame.ofSkipIf s _)⟩
  | ldVxByte => exact ⟨_, rfl, .inr (Frame.ofSetV s _ _)⟩
  | addVxByte => exact ⟨_, rfl, .inr (Frame.ofSetV s _ _)⟩
  | ldVxVy => exact ⟨_, rfl, .inr (Frame.ofSetV s _ _)⟩
  | orVxVy => exact ⟨_, rfl, .inr (Frame.ofSetV s _ _)⟩
  | andVxVy => exact ⟨_, rfl, .inr (Frame.ofSetV s _ _)⟩
  | xorVxVy => exact ⟨_, rfl, .inr (Frame.ofSetV s _ _)⟩
  | addVxVy => exact ⟨_, rfl, .inr (Frame.ofSetVFlag s _ _ _)⟩
  | subVxVy => exact ⟨_, rfl, .inr (Frame.ofSetVFlag s _ _ _)⟩
  | shrVx => exact ⟨_, rfl, .inr (Frame.ofSetVFlag s _ _ _)⟩
  | subnVxVy => exact ⟨_, rfl, .inr (Frame.ofSetVFlag s _ _ _)⟩
  | shlVx => exact ⟨_, rfl, .inr (Frame.ofSetVFlag s _ _ _)⟩
  | ldIAddr => exact ⟨_, rfl, .inr (by constructor <;> intros <;> first | rfl | contradiction)⟩
  | jpV0Addr => exact ⟨_, rfl, .inr (by constructor <;> intros <;> first | rfl | contradiction)⟩
  | rndVxByte => exact ⟨_, rfl, .inr (Frame.ofSetV s _ _)⟩
  | drwVxVyNibble x y n =>
    cases h : s.badDataAddr n.toNat with
    | some a => exact ⟨_, exec_drw_out s x y n h, .inl ⟨_, _, _, rfl⟩⟩
    | none =>
      refine ⟨_, exec_drw_in s x y n h, .inr ?_⟩
      constructor
      case regs =>
        intro r hr
        exact (State.getV_setV _ VF r _).trans (if_neg (by simpa [changesOf] using hr))
      all_goals intros; first | rfl | contradiction
  | skpVx x =>
    rcases Nat.lt_or_ge 15 (s.getV x).toNat with h | h
    · exact ⟨_, exec_skp_out s x h, .inl ⟨_, _, _, rfl⟩⟩
    · exact ⟨_, exec_skp_in s x h, .inr (Frame.ofSkipIf s _)⟩
  | sknpVx x =>
    rcases Nat.lt_or_ge 15 (s.getV x).toNat with h | h
    · exact ⟨_, exec_sknp_out s x h, .inl ⟨_, _, _, rfl⟩⟩
    · exact ⟨_, exec_sknp_in s x h, .inr (Frame.ofSkipIf s _)⟩
  | ldVxDt => exact ⟨_, rfl, .inr (Frame.ofSetV s _ _)⟩
  | ldVxK x =>
    by_cases h : s.keys = 0
    · exact ⟨_, exec_ldVxK_wait s x h, .inr (Frame.refl s _)⟩
    · exact ⟨_, exec_ldVxK_take s x h, .inr (Frame.ofSetV s _ _)⟩
  | ldDtVx => exact ⟨_, rfl, .inr (by constructor <;> intros <;> first | rfl | contradiction)⟩
  | ldStVx => exact ⟨_, rfl, .inr (by constructor <;> intros <;> first | rfl | contradiction)⟩
  | addIVx => exact ⟨_, rfl, .inr (by constructor <;> intros <;> first | rfl | contradiction)⟩
  | ldFVx => exact ⟨_, rfl, .inr (by constructor <;> intros <;> first | rfl | contradiction)⟩
  | ldBVx x =>
    cases h : s.badDataAddr 3 with
    | some a => exact ⟨_, exec_ldBVx_out s x h, .inl ⟨_, _, _, rfl⟩⟩
    | none => exact ⟨_, exec_ldBVx_in s x h, .inr (Frame.ofStoreBytes s _ 3 rfl)⟩
  | ldMemIVx x =>
    cases h : s.badDataAddr x.val with
    | some a => exact ⟨_, exec_ldMemIVx_out s x h, .inl ⟨_, _, _, rfl⟩⟩
    | none => exact ⟨_, exec_ldMemIVx_in s x h, .inr (Frame.ofStoreBytes s _ x.val (State.length_lowRegs s x))⟩
  | ldVxMemI x =>
    cases h : s.badDataAddr x.val with
    | some a => exact ⟨_, exec_ldVxMemI_out s x h, .inl ⟨_, _, _, rfl⟩⟩
    | none => exact ⟨_, exec_ldVxMemI_in s x h, .inr (Frame.ofLoadRegs s x.val)⟩

/-- The same, of a given next state. -/
theorem exec_frame_of_eq {i : Instr} {t : State} (h : exec i s = .next t) :
    (∃ c ir info, t = s.raise c ir info) ∨ Frame (changesOf i s) s t := by
  obtain ⟨u, hu, hc⟩ := exec_frame s i
  rw [hu] at h
  cases h
  exact hc

end Sys2Proof.Machine
end

