-- ==== Sys2Proof/Laws/PerInstr.lean ====
section
/-! SUPPORT. The family `TableRow`, one lemma per instruction: a well-formed instruction's word matches its row of the
opcode map, `(ir and mask) = value` (30_encoding.md R61), the masks and values copied from spec/opcode_table.json. -/

namespace Sys2Proof.Laws.TableRow

/-- The `match` and the `mask` of an instruction's row in spec/opcode_table.json. -/
def rowOf : Instr → Word × Word
  | .cls _ => (0x00E0, 0xF0FF)
  | .ret _ => (0x00EE, 0xF0FF)
  | .sysAddr _ => (0x0000, 0xF000)
  | .jpAddr _ => (0x1000, 0xF000)
  | .callAddr _ => (0x2000, 0xF000)
  | .seVxByte _ _ => (0x3000, 0xF000)
  | .sneVxByte _ _ => (0x4000, 0xF000)
  | .seVxVy _ _ _ => (0x5000, 0xF000)
  | .ldVxByte _ _ => (0x6000, 0xF000)
  | .addVxByte _ _ => (0x7000, 0xF000)
  | .ldVxVy _ _ => (0x8000, 0xF00F)
  | .orVxVy _ _ => (0x8001, 0xF00F)
  | .andVxVy _ _ => (0x8002, 0xF00F)
  | .xorVxVy _ _ => (0x8003, 0xF00F)
  | .addVxVy _ _ => (0x8004, 0xF00F)
  | .subVxVy _ _ => (0x8005, 0xF00F)
  | .shrVx _ _ => (0x8006, 0xF00F)
  | .subnVxVy _ _ => (0x8007, 0xF00F)
  | .shlVx _ _ => (0x800E, 0xF00F)
  | .sneVxVy _ _ _ => (0x9000, 0xF000)
  | .ldIAddr _ => (0xA000, 0xF000)
  | .jpV0Addr _ => (0xB000, 0xF000)
  | .rndVxByte _ _ => (0xC000, 0xF000)
  | .drwVxVyNibble _ _ _ => (0xD000, 0xF000)
  | .skpVx _ => (0xE09E, 0xF0FF)
  | .sknpVx _ => (0xE0A1, 0xF0FF)
  | .ldVxDt _ => (0xF007, 0xF0FF)
  | .ldVxK _ => (0xF00A, 0xF0FF)
  | .ldDtVx _ => (0xF015, 0xF0FF)
  | .ldStVx _ => (0xF018, 0xF0FF)
  | .addIVx _ => (0xF01E, 0xF0FF)
  | .ldFVx _ => (0xF029, 0xF0FF)
  | .ldBVx _ => (0xF033, 0xF0FF)
  | .ldMemIVx _ => (0xF055, 0xF0FF)
  | .ldVxMemI _ => (0xF065, 0xF0FF)

def Statement (i : Instr) : Prop := i.wellFormed = true → encode i &&& (rowOf i).2 = (rowOf i).1

theorem cls (ign : Nibble) : Statement (.cls ign) := by
  intro _
  show wordI .. &&& wordI 0xF 0x0 0xFF = _
  rw [wordI_and]
  simp only [BitVec.ofNat_eq_ofNat, BitVec.and_zero]
  rfl

theorem ret (ign : Nibble) : Statement (.ret ign) := by
  intro _
  show wordI .. &&& wordI 0xF 0x0 0xFF = _
  rw [wordI_and]
  simp only [BitVec.ofNat_eq_ofNat, BitVec.and_zero]
  rfl

theorem sysAddr (nnn : Addr) : Statement (.sysAddr nnn) := by
  intro _
  show wordA .. &&& wordA 0xF 0x000 = _
  rw [wordA_and]
  simp only [BitVec.ofNat_eq_ofNat, BitVec.and_zero]
  rfl

theorem jpAddr (nnn : Addr) : Statement (.jpAddr nnn) := by
  intro _
  show wordA .. &&& wordA 0xF 0x000 = _
  rw [wordA_and]
  simp only [BitVec.ofNat_eq_ofNat, BitVec.and_zero]
  rfl

theorem callAddr (nnn : Addr) : Statement (.callAddr nnn) := by
  intro _
  show wordA .. &&& wordA 0xF 0x000 = _
  rw [wordA_and]
  simp only [BitVec.ofNat_eq_ofNat, BitVec.and_zero]
  rfl

theorem seVxByte (x : Reg) (nn : Byte) : Statement (.seVxByte x nn) := by
  intro _
  show wordI .. &&& wordI 0xF 0x0 0x00 = _
  rw [wordI_and]
  simp only [BitVec.ofNat_eq_ofNat, BitVec.and_zero]
  rfl

theorem sneVxByte (x : Reg) (nn : Byte) : Statement (.sneVxByte x nn) := by
  intro _
  show wordI .. &&& wordI 0xF 0x0 0x00 = _
  rw [wordI_and]
  simp only [BitVec.ofNat_eq_ofNat, BitVec.and_zero]
  rfl

theorem seVxVy (x : Reg) (y : Reg) (ign : Nibble) : Statement (.seVxVy x y ign) := by
  intro _
  show wordR .. &&& wordR 0xF 0x0 0x0 0x0 = _
  rw [wordR_and]
  simp only [BitVec.ofNat_eq_ofNat, BitVec.and_zero]
  rfl

theorem ldVxByte (x : Reg) (nn : Byte) : Statement (.ldVxByte x nn) := by
  intro _
  show wordI .. &&& wordI 0xF 0x0 0x00 = _
  rw [wordI_and]
  simp only [BitVec.ofNat_eq_ofNat, BitVec.and_zero]
  rfl

theorem addVxByte (x : Reg) (nn : Byte) : Statement (.addVxByte x nn) := by
  intro _
  show wordI .. &&& wordI 0xF 0x0 0x00 = _
  rw [wordI_and]
  simp only [BitVec.ofNat_eq_ofNat, BitVec.and_zero]
  rfl

theorem ldVxVy (x : Reg) (y : Reg) : Statement (.ldVxVy x y) := by
  intro _
  show wordR .. &&& wordR 0xF 0x0 0x0 0xF = _
  rw [wordR_and]
  simp only [BitVec.ofNat_eq_ofNat, BitVec.and_zero]
  rfl

theorem orVxVy (x : Reg) (y : Reg) : Statement (.orVxVy x y) := by
  intro _
  show wordR .. &&& wordR 0xF 0x0 0x0 0xF = _
  rw [wordR_and]
  simp only [BitVec.ofNat_eq_ofNat, BitVec.and_zero]
  rfl

theorem andVxVy (x : Reg) (y : Reg) : Statement (.andVxVy x y) := by
  intro _
  show wordR .. &&& wordR 0xF 0x0 0x0 0xF = _
  rw [wordR_and]
  simp only [BitVec.ofNat_eq_ofNat, BitVec.and_zero]
  rfl

theorem xorVxVy (x : Reg) (y : Reg) : Statement (.xorVxVy x y) := by
  intro _
  show wordR .. &&& wordR 0xF 0x0 0x0 0xF = _
  rw [wordR_and]
  simp only [BitVec.ofNat_eq_ofNat, BitVec.and_zero]
  rfl

theorem addVxVy (x : Reg) (y : Reg) : Statement (.addVxVy x y) := by
  intro _
  show wordR .. &&& wordR 0xF 0x0 0x0 0xF = _
  rw [wordR_and]
  simp only [BitVec.ofNat_eq_ofNat, BitVec.and_zero]
  rfl

theorem subVxVy (x : Reg) (y : Reg) : Statement (.subVxVy x y) := by
  intro _
  show wordR .. &&& wordR 0xF 0x0 0x0 0xF = _
  rw [wordR_and]
  simp only [BitVec.ofNat_eq_ofNat, BitVec.and_zero]
  rfl

theorem shrVx (x : Reg) (ign : Nibble) : Statement (.shrVx x ign) := by
  intro _
  show wordR .. &&& wordR 0xF 0x0 0x0 0xF = _
  rw [wordR_and]
  simp only [BitVec.ofNat_eq_ofNat, BitVec.and_zero]
  rfl

theorem subnVxVy (x : Reg) (y : Reg) : Statement (.subnVxVy x y) := by
  intro _
  show wordR .. &&& wordR 0xF 0x0 0x0 0xF = _
  rw [wordR_and]
  simp only [BitVec.ofNat_eq_ofNat, BitVec.and_zero]
  rfl

theorem shlVx (x : Reg) (ign : Nibble) : Statement (.shlVx x ign) := by
  intro _
  show wordR .. &&& wordR 0xF 0x0 0x0 0xF = _
  rw [wordR_and]
  simp only [BitVec.ofNat_eq_ofNat, BitVec.and_zero]
  rfl

theorem sneVxVy (x : Reg) (y : Reg) (ign : Nibble) : Statement (.sneVxVy x y ign) := by
  intro _
  show wordR .. &&& wordR 0xF 0x0 0x0 0x0 = _
  rw [wordR_and]
  simp only [BitVec.ofNat_eq_ofNat, BitVec.and_zero]
  rfl

theorem ldIAddr (nnn : Addr) : Statement (.ldIAddr nnn) := by
  intro _
  show wordA .. &&& wordA 0xF 0x000 = _
  rw [wordA_and]
  simp only [BitVec.ofNat_eq_ofNat, BitVec.and_zero]
  rfl

theorem jpV0Addr (nnn : Addr) : Statement (.jpV0Addr nnn) := by
  intro _
  show wordA .. &&& wordA 0xF 0x000 = _
  rw [wordA_and]
  simp only [BitVec.ofNat_eq_ofNat, BitVec.and_zero]
  rfl

theorem rndVxByte (x : Reg) (nn : Byte) : Statement (.rndVxByte x nn) := by
  intro _
  show wordI .. &&& wordI 0xF 0x0 0x00 = _
  rw [wordI_and]
  simp only [BitVec.ofNat_eq_ofNat, BitVec.and_zero]
  rfl

theorem drwVxVyNibble (x : Reg) (y : Reg) (n : Nibble) : Statement (.drwVxVyNibble x y n) := by
  intro _
  show wordR .. &&& wordR 0xF 0x0 0x0 0x0 = _
  rw [wordR_and]
  simp only [BitVec.ofNat_eq_ofNat, BitVec.and_zero]
  rfl

theorem skpVx (x : Reg) : Statement (.skpVx x) := by
  intro _
  show wordI .. &&& wordI 0xF 0x0 0xFF = _
  rw [wordI_and]
  simp only [BitVec.ofNat_eq_ofNat, BitVec.and_zero]
  rfl

theorem sknpVx (x : Reg) : Statement (.sknpVx x) := by
  intro _
  show wordI .. &&& wordI 0xF 0x0 0xFF = _
  rw [wordI_and]
  simp only [BitVec.ofNat_eq_ofNat, BitVec.and_zero]
  rfl

theorem ldVxDt (x : Reg) : Statement (.ldVxDt x) := by
  intro _
  show wordI .. &&& wordI 0xF 0x0 0xFF = _
  rw [wordI_and]
  simp only [BitVec.ofNat_eq_ofNat, BitVec.and_zero]
  rfl

theorem ldVxK (x : Reg) : Statement (.ldVxK x) := by
  intro _
  show wordI .. &&& wordI 0xF 0x0 0xFF = _
  rw [wordI_and]
  simp only [BitVec.ofNat_eq_ofNat, BitVec.and_zero]
  rfl

theorem ldDtVx (x : Reg) : Statement (.ldDtVx x) := by
  intro _
  show wordI .. &&& wordI 0xF 0x0 0xFF = _
  rw [wordI_and]
  simp only [BitVec.ofNat_eq_ofNat, BitVec.and_zero]
  rfl

theorem ldStVx (x : Reg) : Statement (.ldStVx x) := by
  intro _
  show wordI .. &&& wordI 0xF 0x0 0xFF = _
  rw [wordI_and]
  simp only [BitVec.ofNat_eq_ofNat, BitVec.and_zero]
  rfl

theorem addIVx (x : Reg) : Statement (.addIVx x) := by
  intro _
  show wordI .. &&& wordI 0xF 0x0 0xFF = _
  rw [wordI_and]
  simp only [BitVec.ofNat_eq_ofNat, BitVec.and_zero]
  rfl

theorem ldFVx (x : Reg) : Statement (.ldFVx x) := by
  intro _
  show wordI .. &&& wordI 0xF 0x0 0xFF = _
  rw [wordI_and]
  simp only [BitVec.ofNat_eq_ofNat, BitVec.and_zero]
  rfl

theorem ldBVx (x : Reg) : Statement (.ldBVx x) := by
  intro _
  show wordI .. &&& wordI 0xF 0x0 0xFF = _
  rw [wordI_and]
  simp only [BitVec.ofNat_eq_ofNat, BitVec.and_zero]
  rfl

theorem ldMemIVx (x : Reg) : Statement (.ldMemIVx x) := by
  intro _
  show wordI .. &&& wordI 0xF 0x0 0xFF = _
  rw [wordI_and]
  simp only [BitVec.ofNat_eq_ofNat, BitVec.and_zero]
  rfl

theorem ldVxMemI (x : Reg) : Statement (.ldVxMemI x) := by
  intro _
  show wordI .. &&& wordI 0xF 0x0 0xFF = _
  rw [wordI_and]
  simp only [BitVec.ofNat_eq_ofNat, BitVec.and_zero]
  rfl

end Sys2Proof.Laws.TableRow
end

