-- ==== Sys2Proof/Laws/Step.lean ====
section
/-! SUPPORT. What a transaction does, one equation per case of 10_state.md R25, 60_exceptions.md R142, R143, R150 and
20_memory.md R52; and, once for all transactions, that each ends in a next state. -/

namespace Sys2Proof.Machine

variable (s : State)

/-- A `STEP` of a halted core (60_exceptions.md R143). -/
theorem run_step_halted (r : Byte) (h : s.halted) :
    runTransaction (.step r) s = .next (s.answer (.stepped none)) := by
  have h' : s.fault.valid = true := h
  simp only [runTransaction, State.transact, State.cycle, h', if_true]

theorem State.cycle_running (r : Byte) (h : s.running) :
    s.cycle r =
      match s.fetch with
      | none => .inl ((s.begin r).raise .fetchRange 0 s.pc)
      | some ir =>
        match decodeWord ir with
        | .ok i => .inr (i, s.begin r)
        | .error _ => .inl ((s.begin r).report ir) := by
  have h' : s.fault.valid = false := h
  simp only [State.cycle, h', Bool.false_eq_true, if_false]
  rfl

/-- A `STEP` whose fetch is out of range (60_exceptions.md R144). -/
theorem run_step_out (r : Byte) (h : s.running) (hf : s.fetch = none) :
    runTransaction (.step r) s = .next ((s.begin r).raise .fetchRange 0 s.pc) := by
  simp only [runTransaction, State.transact, State.cycle_running s r h, hf]

/-- A `STEP` that fetches an unrecognized word (60_exceptions.md R150). -/
theorem run_step_unrecognized (r : Byte) (h : s.running) {ir : Word} {e : DecodeError} (hf : s.fetch = some ir)
    (hd : decodeWord ir = .error e) : runTransaction (.step r) s = .next ((s.begin r).report ir) := by
  simp only [runTransaction, State.transact, State.cycle_running s r h, hf, hd]

/-- A `STEP` that executes an instruction (10_state.md R25). -/
theorem run_step_exec (r : Byte) {i : Instr} (h : s.runs i) : runTransaction (.step r) s = exec i (s.begin r) := by
  obtain ⟨hr, ir, hf, hd⟩ := h
  simp only [runTransaction, State.transact, State.cycle_running s r hr, hf, hd]

/-- The four cases of a `STEP`. -/
theorem step_cases : s.halted ∨ (s.running ∧ s.fetch = none) ∨
    (∃ ir e, s.running ∧ s.fetch = some ir ∧ decodeWord ir = .error e) ∨ ∃ i, s.runs i := by
  rcases Bool.eq_false_or_eq_true s.fault.valid with h | h
  · exact .inl h
  · cases hf : s.fetch with
    | none => exact .inr (.inl ⟨h, rfl⟩)
    | some ir =>
      cases hd : decodeWord ir with
      | error e => exact .inr (.inr (.inl ⟨ir, e, h, rfl, hd⟩))
      | ok i => exact .inr (.inr (.inr ⟨i, h, ir, hf, hd⟩))

/-- A `LOAD` that fits (20_memory.md R52). -/
theorem run_load_ok (bs : List Byte) (h : bs.length ≤ 3584) :
    runTransaction (.load (some bs)) s = .next ((s.setMem (s.mem.writeBytes 0x200 bs)).answer (.loaded .ok)) :=
  congrArg Host.Outcome.next (if_neg (Nat.not_lt.mpr h))

/-- A `LOAD` that does not fit. -/
theorem run_load_tooLarge (bs : List Byte) (h : 3584 < bs.length) :
    runTransaction (.load (some bs)) s = .next (s.answer (.loaded .programTooLarge)) :=
  congrArg Host.Outcome.next (if_pos h)

/-- Every transaction ends in a next state. -/
theorem runTransaction_next (t : Transaction) : ∃ u, runTransaction t s = .next u := by
  unfold runTransaction
  cases s.transact t with
  | inl u => exact ⟨u, rfl⟩
  | inr p =>
    obtain ⟨u, h, _⟩ := exec_frame p.2 p.1
    exact ⟨u, h⟩

theorem step_listed {t : Transaction} {rest : List Transaction} (h : s.port.pending = t :: rest) :
    step s = runTransaction t (s.setPort { s.port with pending := rest }) := by
  simp only [step, State.nextTransaction, h]

theorem step_unlisted (h : s.port.pending = []) :
    step s = runTransaction (.step (Config.rndByte s.port.draws)) (s.setPort { s.port with draws := s.port.draws + 1 }) := by
  simp only [step, State.nextTransaction, h]

/-- Whatever is pending, a step is one transaction, and the state it runs in differs from `s` in `port` only. -/
theorem step_is_transaction : ∃ t p, step s = runTransaction t (s.setPort p) := by
  cases h : s.port.pending with
  | nil => exact ⟨_, _, step_unlisted s h⟩
  | cons t rest => exact ⟨_, _, step_listed s h⟩

/-- One step of a run from a step that ends in a next state. -/
theorem core_run_succ {s u : State} (n : Nat) (h : step s = .next u) :
    Host.Core.run Sys2Proof.core (n + 1) s = Host.Core.run Sys2Proof.core n u := by
  have h' : Sys2Proof.core.step s = .next u := h
  simp only [Host.Core.run, h']

@[simp] theorem countDown_toNat (b : Byte) : (countDown b).toNat = b.toNat - 1 := by
  revert b; decide

end Sys2Proof.Machine
end

