-- ==== Sys2Proof/Tests/Slice0.lean ====
section
/-! SUPPORT. Tests. Expected values come from spec/95_test_vectors.md (the vector's id stands in each comment) or, for
the encodings, from the word column and the fields of 30_encoding.md R56, R61, written out bit by bit. -/

namespace Sys2Proof.Machine.Tests

/-- The state after `RESET` with a word placed at 0x200, as the vectors' single-instruction convention has it. -/
def at200 (w : Word) : State := State.reset.placeWord w

/-- One step, a `STEP` with the byte `r`. -/
def stepWith (r : Byte) (s : State) : State :=
  match step (s.setPort { s.port with pending := [.step r] }) with
  | .next t => t
  | .refused _ => s

/-- One step, a `STEP` with the byte 0. -/
def stepped (s : State) : State := stepWith 0 s

/-- One transaction, listed by the environment. -/
def issue (t : Transaction) (s : State) : State :=
  match step (s.setPort { s.port with pending := [t] }) with
  | .next u => u
  | .refused _ => s

/-- A full call stack. -/
def full (s : State) : State := s.setSp 16

/-- Bytes placed in memory. -/
def poke (a : Nat) (bs : List Byte) (s : State) : State := s.setMem (s.mem.writeBytes a bs)

/-- One pixel turned on. -/
def dot (y : Fin 32) (x : Fin 64) (s : State) : State := s.setFb (s.fb.setPixel y x true)

/-! ## WellFormed: the one check refuses an ill-formed term -/

theorem test_wellFormed_refuses_cls_as_sys : (Instr.sysAddr 0x0E0).wellFormed = false := by decide
theorem test_wellFormed_refuses_ret_as_sys : (Instr.sysAddr 0x5EE).wellFormed = false := by decide
theorem test_wellFormed_accepts_sys : (Instr.sysAddr 0x123).wellFormed = true := by decide

/-! ## Decode: each constructor's word, bit by bit -/

theorem test_decode_cls : decodeWord 0b0000_0101_1110_0000 = .ok (.cls 0b0101) := by decide
theorem test_decode_ret : decodeWord 0b0000_0111_1110_1110 = .ok (.ret 0b0111) := by decide
theorem test_decode_sysAddr : decodeWord 0b0000_0001_0010_0011 = .ok (.sysAddr 0b0001_0010_0011) := by decide
theorem test_decode_jpAddr : decodeWord 0b0001_1010_1011_1100 = .ok (.jpAddr 0b1010_1011_1100) := by decide
theorem test_decode_callAddr : decodeWord 0b0010_1010_1011_1100 = .ok (.callAddr 0b1010_1011_1100) := by decide
theorem test_decode_seVxByte : decodeWord 0b0011_0011_0100_0010 = .ok (.seVxByte 3 0b0100_0010) := by decide
theorem test_decode_sneVxByte : decodeWord 0b0100_0011_0100_0010 = .ok (.sneVxByte 3 0b0100_0010) := by decide
theorem test_decode_seVxVy : decodeWord 0b0101_0011_0100_1111 = .ok (.seVxVy 3 4 0b1111) := by decide
theorem test_decode_ldVxByte : decodeWord 0b0110_1010_0000_0010 = .ok (.ldVxByte 10 0b0000_0010) := by decide
theorem test_decode_addVxByte : decodeWord 0b0111_0001_0000_0101 = .ok (.addVxByte 1 0b0000_0101) := by decide
theorem test_decode_ldVxVy : decodeWord 0b1000_0001_0010_0000 = .ok (.ldVxVy 1 2) := by decide
theorem test_decode_orVxVy : decodeWord 0b1000_0001_0010_0001 = .ok (.orVxVy 1 2) := by decide
theorem test_decode_andVxVy : decodeWord 0b1000_0001_0010_0010 = .ok (.andVxVy 1 2) := by decide
theorem test_decode_xorVxVy : decodeWord 0b1000_0001_0010_0011 = .ok (.xorVxVy 1 2) := by decide
theorem test_decode_addVxVy : decodeWord 0b1000_0001_0010_0100 = .ok (.addVxVy 1 2) := by decide
theorem test_decode_subVxVy : decodeWord 0b1000_0001_0010_0101 = .ok (.subVxVy 1 2) := by decide
theorem test_decode_shrVx : decodeWord 0b1000_0001_0010_0110 = .ok (.shrVx 1 0b0010) := by decide
theorem test_decode_subnVxVy : decodeWord 0b1000_0001_0010_0111 = .ok (.subnVxVy 1 2) := by decide
theorem test_decode_shlVx : decodeWord 0b1000_0001_0010_1110 = .ok (.shlVx 1 0b0010) := by decide
theorem test_decode_sneVxVy : decodeWord 0b1001_0011_0101_0111 = .ok (.sneVxVy 3 5 0b0111) := by decide
theorem test_decode_ldIAddr : decodeWord 0b1010_0001_0010_0011 = .ok (.ldIAddr 0b0001_0010_0011) := by decide
theorem test_decode_jpV0Addr : decodeWord 0b1011_0011_0000_0000 = .ok (.jpV0Addr 0b0011_0000_0000) := by decide
theorem test_decode_rndVxByte : decodeWord 0b1100_0001_0000_1111 = .ok (.rndVxByte 1 0b0000_1111) := by decide
theorem test_decode_drwVxVyNibble : decodeWord 0b1101_1010_0000_0101 = .ok (.drwVxVyNibble 10 0 0b0101) := by decide
theorem test_decode_skpVx : decodeWord 0b1110_0100_1001_1110 = .ok (.skpVx 4) := by decide
theorem test_decode_sknpVx : decodeWord 0b1110_0100_1010_0001 = .ok (.sknpVx 4) := by decide
theorem test_decode_ldVxDt : decodeWord 0b1111_0011_0000_0111 = .ok (.ldVxDt 3) := by decide
theorem test_decode_ldVxK : decodeWord 0b1111_0101_0000_1010 = .ok (.ldVxK 5) := by decide
theorem test_decode_ldDtVx : decodeWord 0b1111_0011_0001_0101 = .ok (.ldDtVx 3) := by decide
theorem test_decode_ldStVx : decodeWord 0b1111_0011_0001_1000 = .ok (.ldStVx 3) := by decide
theorem test_decode_addIVx : decodeWord 0b1111_0001_0001_1110 = .ok (.addIVx 1) := by decide
theorem test_decode_ldFVx : decodeWord 0b1111_0001_0010_1001 = .ok (.ldFVx 1) := by decide
theorem test_decode_ldBVx : decodeWord 0b1111_0001_0011_0011 = .ok (.ldBVx 1) := by decide
theorem test_decode_ldMemIVx : decodeWord 0b1111_0011_0101_0101 = .ok (.ldMemIVx 3) := by decide
theorem test_decode_ldVxMemI : decodeWord 0b1111_0011_0110_0101 = .ok (.ldVxMemI 3) := by decide

/-- UN-1: words of no row of group 8. -/
theorem test_decode_unrecognized_8 :
    decodeWord 0x8128 = .error (.unrecognized 0x8128) ∧ decodeWord 0x812F = .error (.unrecognized 0x812F) := by decide

/-- UN-4, IN-12: words of no row of group E. -/
theorem test_decode_unrecognized_E :
    decodeWord 0xE41E = .error (.unrecognized 0xE41E) ∧ decodeWord 0xE19F = .error (.unrecognized 0xE19F) := by decide

/-- UN-3: words of no row of group F. -/
theorem test_decode_unrecognized_F :
    decodeWord 0xF000 = .error (.unrecognized 0xF000) ∧ decodeWord 0xF175 = .error (.unrecognized 0xF175) := by decide

/-- UN-2: the low byte decides in group 0. -/
theorem test_decode_group0 :
    decodeWord 0x00E1 = .ok (.sysAddr 0x0E1) ∧ decodeWord 0x00FE = .ok (.sysAddr 0x0FE) ∧
    decodeWord 0x0010 = .ok (.sysAddr 0x010) := by decide

theorem test_decodeBytes_rest : decodeBytes [0x6A, 0x02, 0xA0] = .ok (.ldVxByte 10 2, [0xA0]) := by decide
theorem test_decodeBytes_short : decodeBytes [0x6A] = .error .truncated := by decide
theorem test_decodeTableWord : decodeTableWord 16 0xDA05 = some (.drwVxVyNibble 10 0 5) := by decide
theorem test_decodeTableWord_refuses : decodeTableWord 16 0x8008 = none := by decide

/-- `withFetchWord` after reset: the next step runs exactly that instruction, whatever byte is drawn. -/
theorem test_withFetchWord :
    step (State.reset.withFetchWord 16 0x6A02) =
      exec (.ldVxByte 10 2)
        ((State.reset.withFetchWord 16 0x6A02).setPort ⟨[], Config.rndByte 0, 1, .stepped none⟩) := rfl

/-! ## RESET, LOAD and the other transactions -/

/-- RS-1, FONT. -/
theorem test_reset_font :
    State.reset.readByte 0x050 = 0xF0 ∧ State.reset.readByte 0x054 = 0xF0 ∧ State.reset.readByte 0x055 = 0x20 ∧
    State.reset.readByte 0x09B = 0xF0 ∧ State.reset.readByte 0x09F = 0x80 ∧ State.reset.readByte 0x0A0 = 0 ∧
    State.reset.readByte 0x04F = 0 := by decide

/-- RS-2: nothing survives a `RESET`. -/
theorem test_reset_forgets :
    let t := issue .reset (((stepped (at200 0x00EE)).setV 3 9).setKeys 0x0004)
    t.fault = FaultLatch.clear ∧ t.getV 3 = 0 ∧ t.keys = 0 ∧ t.pc = 0x200 ∧ t.mem = [] := by decide

/-- LD-2. -/
theorem test_load :
    let t := issue (.load (some [0x12, 0x00])) State.reset
    t.port.result = .loaded .ok ∧ t.readByte 0x200 = 0x12 ∧ t.readByte 0x201 = 0 ∧ t.readByte 0x202 = 0 ∧
    t.pc = 0x200 ∧ t.mem = [(0x200, 0x12)] := by decide

/-- LD-3, one byte too many. -/
theorem test_load_tooLarge :
    (State.reset.load (some (List.replicate 3585 0xAB))).port.result = .loaded .programTooLarge := by
  rw [State.load, if_pos (by rw [List.length_replicate]; decide)]; rfl

/-- LD-5. -/
theorem test_load_unavailable :
    (issue (.load none) State.reset).port.result = .loaded .sourceUnavailable ∧
    (issue (.load none) State.reset).mem = [] := by decide

/-- TM-5. -/
theorem test_tick :
    let t := issue .tick ((State.reset.setDt 3).setSt 1)
    t.dt = 2 ∧ t.st = 0 ∧ t.port.result = .ticked true := by decide

/-- TM-4, the floor. -/
theorem test_tick_floor :
    let t := issue .tick State.reset
    t.dt = 0 ∧ t.st = 0 ∧ t.port.result = .ticked false := by decide

/-- IN-8. -/
theorem test_keys :
    let t := issue (.keys 0x8001) State.reset
    t.key 0 = true ∧ t.key 15 = true ∧ t.key 7 = false ∧ (issue (.keys 0) t).keys = 0 := by decide

/-- The flag read by `PRESENT` is the one before it is cleared (60_exceptions.md R160). -/
theorem test_present :
    let t := issue .present (State.reset.setRedraw true)
    t.redraw = false ∧ t.port.result = .presented FrameBuffer.clear true := by decide

/-- UN-7: a `STEP` of a halted core. -/
theorem test_halted_step :
    let t := stepped (at200 0x00EE)
    (stepped t).fault = t.fault ∧ (stepped t).port.result = .stepped none ∧ (stepped t).pc = 0x200 := by decide

/-- CF-3, the step after: the fetch faults. -/
theorem test_fetchRange :
    (stepped (State.reset.setPc 0x0FFF)).fault = ⟨true, 1, 0x0FFF, 0, 0x0FFF⟩ := by decide

/-- CF-23: the last address an instruction can be fetched from. -/
theorem test_fetch_last :
    (stepped (poke 0x0FFE [0x30, 0x00] (State.reset.setPc 0x0FFE))).pc = 0x1002 := by decide

/-- A byte written back to its reset contents leaves the list (log entry 6). -/
theorem test_memory_canonical :
    (poke 0x050 [0xF0] (poke 0x050 [0x01] (poke 0x300 [7] State.reset))).mem = [(0x300, 7)] := by decide

/-! ## Control flow -/

/-- CF-24. -/
theorem test_sys :
    let t := stepped (at200 0x0123)
    t.port.result = .stepped (some ⟨0x0123, 0x200⟩) ∧ t.pc = 0x202 ∧ t.fault = FaultLatch.clear := by decide

/-- CF-1. -/
theorem test_jp : (stepped (at200 0x1ABC)).pc = 0xABC := by decide

/-- CF-5. -/
theorem test_call :
    let t := stepped ((at200 0x2ABC).setSp 15)
    t.stack.get 15 = 0x202 ∧ t.sp = 16 ∧ t.pc = 0xABC := by decide

/-- CF-6. -/
theorem test_call_full :
    let t := stepped (full (at200 0x2ABC))
    t.fault = ⟨true, 3, 0x200, 0x2ABC, 16⟩ ∧ t.pc = 0x200 ∧ t.sp = 16 := by decide

/-- CF-7, the alias `0x07EE`. -/
theorem test_ret :
    let t := stepped (((at200 0x07EE).setStack ((at200 0).stack.set 0 0x456)).setSp 1)
    t.sp = 0 ∧ t.pc = 0x456 ∧ t.stack.get 0 = 0x456 := by decide

/-- CF-8. -/
theorem test_ret_empty :
    let t := stepped (at200 0x00EE)
    t.fault = ⟨true, 4, 0x200, 0x00EE, 0⟩ ∧ t.pc = 0x200 := by decide

/-- CF-9, CF-10. -/
theorem test_seVxByte :
    (stepped ((at200 0x3342).setV 3 0x42)).pc = 0x204 ∧ (stepped ((at200 0x3343).setV 3 0x42)).pc = 0x202 := by decide

/-- CF-11, CF-12. -/
theorem test_sneVxByte :
    (stepped ((at200 0x4342).setV 3 0x42)).pc = 0x202 ∧ (stepped ((at200 0x4343).setV 3 0x42)).pc = 0x204 := by decide

/-- CF-15, CF-14. -/
theorem test_seVxVy :
    (stepped (((at200 0x534F).setV 3 0x42).setV 4 0x42)).pc = 0x204 ∧
    (stepped (((at200 0x5350).setV 3 0x42).setV 5 1)).pc = 0x202 := by decide

/-- CF-17, CF-19. -/
theorem test_sneVxVy :
    (stepped (((at200 0x9340).setV 3 0x42).setV 4 0x42)).pc = 0x202 ∧
    (stepped (((at200 0x9357).setV 3 0x42).setV 5 1)).pc = 0x204 := by decide

/-- CF-22: not truncated to 12 bits. -/
theorem test_jpV0 : (stepped ((at200 0xBFFF).setV 0 0xFF)).pc = 0x10FE := by decide

/-! ## Register operations -/

/-- RG-1. -/
theorem test_ldVxByte : (stepped (at200 0x6A02)).getV 10 = 2 ∧ (stepped (at200 0x6A02)).pc = 0x202 := by decide

/-- RG-3. -/
theorem test_addVxByte :
    let t := stepped (((at200 0x7105).setV 1 0xFE).setV VF 0x55)
    t.getV 1 = 0x03 ∧ t.getV VF = 0x55 := by decide

/-- RG-5. -/
theorem test_ldVxVy : (stepped (((at200 0x8120).setV 1 1).setV 2 0x9C)).getV 1 = 0x9C := by decide

/-- RG-7. -/
theorem test_orVxVy :
    let t := stepped ((((at200 0x8121).setV 1 0xF0).setV 2 0x0F).setV VF 0x55)
    t.getV 1 = 0xFF ∧ t.getV VF = 0x55 := by decide

/-- RG-8. -/
theorem test_andVxVy :
    let t := stepped ((((at200 0x8122).setV 1 0xF0).setV 2 0x3C).setV VF 0x55)
    t.getV 1 = 0x30 ∧ t.getV VF = 0x55 := by decide

/-- RG-9. -/
theorem test_xorVxVy :
    let t := stepped ((((at200 0x8123).setV 1 0xF0).setV 2 0x3C).setV VF 0x55)
    t.getV 1 = 0xCC ∧ t.getV VF = 0x55 := by decide

/-- RG-12: the sum 255 is not a carry. -/
theorem test_addVxVy :
    let t := stepped ((((at200 0x8124).setV 1 0xF0).setV 2 0x0F).setV VF 0x55)
    t.getV 1 = 0xFF ∧ t.getV VF = 0 := by decide

/-- RG-17: the old VF is the operand. -/
theorem test_addVxVy_fromVF :
    let t := stepped (((at200 0x81F4).setV 1 0x01).setV VF 0xFF)
    t.getV 1 = 0x00 ∧ t.getV VF = 1 := by decide

/-- RG-20. -/
theorem test_subVxVy :
    let t := stepped (((at200 0x8125).setV 1 3).setV 2 5)
    t.getV 1 = 0xFE ∧ t.getV VF = 0 := by decide

/-- RG-24: the flag survives in VF. -/
theorem test_subVxVy_intoVF : (stepped (((at200 0x8F15).setV VF 5).setV 1 3)).getV VF = 1 := by decide

/-- RG-27: Y is not read. -/
theorem test_shrVx :
    let t := stepped (((at200 0x8126).setV 1 0x05).setV 2 0xFF)
    t.getV 1 = 0x02 ∧ t.getV VF = 1 ∧ t.getV 2 = 0xFF := by decide

/-- RG-33. -/
theorem test_subnVxVy :
    let t := stepped (((at200 0x8127).setV 1 5).setV 2 3)
    t.getV 1 = 0xFE ∧ t.getV VF = 0 := by decide

/-- RG-34: equal operands are no borrow. -/
theorem test_subnVxVy_equal :
    let t := stepped (((at200 0x8127).setV 1 7).setV 2 7)
    t.getV 1 = 0x00 ∧ t.getV VF = 1 := by decide

/-- RG-37. -/
theorem test_shlVx :
    let t := stepped (((at200 0x812E).setV 1 0x81).setV 2 0xFF)
    t.getV 1 = 0x02 ∧ t.getV VF = 1 ∧ t.getV 2 = 0xFF := by decide

/-! ## Index operations and block transfer -/

/-- IX-1. -/
theorem test_ldIAddr : (stepped ((at200 0xA123).setI 0xFFFF)).i = 0x0123 := by decide

/-- IX-4. -/
theorem test_addIVx :
    let t := stepped ((((at200 0xF11E).setI 0xFFFF).setV 1 2).setV VF 7)
    t.i = 0x0001 ∧ t.getV VF = 7 := by decide

/-- IX-8: the low nibble only. -/
theorem test_ldFVx : (stepped ((at200 0xF129).setV 1 0xFA)).i = 0x0082 := by decide

/-- IX-17: the last legal base. -/
theorem test_ldBVx :
    let t := stepped (((at200 0xF133).setV 1 123).setI 0x0FFD)
    t.readByte 0xFFD = 1 ∧ t.readByte 0xFFE = 2 ∧ t.readByte 0xFFF = 3 ∧ t.i = 0x0FFD := by decide

/-- IX-18: no partial store. -/
theorem test_ldBVx_out :
    let t := stepped (((at200 0xF133).setV 1 123).setI 0x0FFE)
    t.fault = ⟨true, 2, 0x200, 0xF133, 0x1000⟩ ∧ t.readByte 0xFFE = 0 ∧ t.readByte 0xFFF = 0 := by decide

/-- BT-3: V3 is not stored. -/
theorem test_ldMemIVx :
    let t := stepped ((((((at200 0xF355).setV 0 0x10).setV 1 0x11).setV 2 0x12).setV 3 0x13).setI 0x400)
    t.readByte 0x400 = 0x10 ∧ t.readByte 0x401 = 0x11 ∧ t.readByte 0x402 = 0x12 ∧ t.readByte 0x403 = 0 ∧
    t.i = 0x400 := by decide

/-- BT-7: no address formed, no fault. -/
theorem test_ldMemIVx_none :
    let t := stepped ((at200 0xF055).setI 0x2000)
    t.fault = FaultLatch.clear ∧ t.pc = 0x202 := by decide

/-- BT-11: V3 is not loaded. -/
theorem test_ldVxMemI :
    let t := stepped (poke 0x400 [0xA0, 0xA1, 0xA2, 0xA3] (((at200 0xF365).setV 3 0x77).setI 0x400))
    t.getV 0 = 0xA0 ∧ t.getV 1 = 0xA1 ∧ t.getV 2 = 0xA2 ∧ t.getV 3 = 0x77 := by decide

/-- BT-13. -/
theorem test_ldVxMemI_out :
    let t := stepped (((at200 0xF265).setV 0 0x77).setI 0xFFF)
    t.fault = ⟨true, 2, 0x200, 0xF265, 0x1000⟩ ∧ t.getV 0 = 0x77 := by decide

/-! ## Random, display, timers, input -/

/-- RN-1. -/
theorem test_rndVxByte : (stepWith 0xB7 ((at200 0xC10F).setV 1 0xAA)).getV 1 = 0x07 := by decide

/-- DR-10, the second draw: one pixel cleared, one set. -/
theorem test_drw :
    let t := stepped (poke 0x301 [0x60] (dot 0 0 (dot 0 1 ((at200 0xD001).setI 0x301))))
    t.fb.pixel 0 0 = true ∧ t.fb.pixel 0 1 = false ∧ t.fb.pixel 0 2 = true ∧ t.fb.pixel 0 3 = false ∧
    t.getV VF = 1 ∧ t.redraw = true := by decide

/-- DR-6: bit 7 is the leftmost pixel, and both coordinates are reduced. -/
theorem test_drw_wraps :
    let t := stepped (poke 0x300 [0x80] ((((at200 0xD121).setV 1 0xFF).setV 2 0xFF).setI 0x300))
    t.fb.pixel 31 63 = true ∧ t.fb.pixel 31 0 = false ∧ t.fb.pixel 0 63 = false ∧ t.getV VF = 0 := by decide

/-- DR-12. -/
theorem test_cls :
    let t := stepped ((dot 5 7 (at200 0x05E0)).setV VF 3)
    t.fb = FrameBuffer.clear ∧ t.redraw = true ∧ t.getV VF = 3 := by decide

/-- TM-1. -/
theorem test_ldVxDt :
    let t := stepped ((at200 0xF307).setDt 0x2A)
    t.getV 3 = 0x2A ∧ t.dt = 0x2A := by decide

/-- TM-2. -/
theorem test_ldDtVx : (stepped ((at200 0xF315).setV 3 0x10)).dt = 0x10 := by decide

/-- TM-3. -/
theorem test_ldStVx : (stepped ((at200 0xF318).setV 3 0x10)).st = 0x10 := by decide

/-- IN-7, IN-2. -/
theorem test_skpVx :
    (stepped (((at200 0xE49E).setV 4 0x0F).setKeys 0x8000)).pc = 0x204 ∧
    (stepped ((at200 0xE49E).setV 4 0x0A)).pc = 0x202 := by decide

/-- IN-5. -/
theorem test_skpVx_out :
    (stepped ((at200 0xE49E).setV 4 0x10)).fault = ⟨true, 5, 0x200, 0xE49E, 0x10⟩ := by decide

/-- IN-3, IN-4. -/
theorem test_sknpVx :
    (stepped (((at200 0xE4A1).setV 4 0x0A).setKeys 0x0400)).pc = 0x202 ∧
    (stepped (((at200 0xE4A1).setV 4 0x0A).setKeys 0xFBFF)).pc = 0x204 := by decide

/-- IN-6. -/
theorem test_sknpVx_out :
    (stepped ((at200 0xE4A1).setV 4 0xFF)).fault = ⟨true, 5, 0x200, 0xE4A1, 0xFF⟩ := by decide

/-- IN-9. -/
theorem test_ldVxK_waits :
    let t := stepped ((at200 0xF50A).setV 5 0x33)
    t.pc = 0x200 ∧ t.getV 5 = 0x33 := by decide

/-- IN-10. -/
theorem test_ldVxK :
    let t := stepped ((at200 0xF50A).setKeys 0x0080)
    t.getV 5 = 0x07 ∧ t.pc = 0x202 := by decide

/-! ## Witnesses: for each statement with hypotheses, a state and operands that meet them together; for a statement
with several clauses one for each, at a boundary of its range -/

/-- A core halted by `RET` on an empty stack (CF-8). -/
def haltedCore : State := (at200 0x00EE).setFault ⟨true, 4, 0x200, 0x00EE, 0⟩

theorem witness_DecodeEncodeRoundTrip : (Instr.sysAddr 0xFEF).wellFormed = true ∧ (Instr.seVxVy 3 4 15).wellFormed = true := by
  decide

theorem witness_EncodeInvertsDecode : decodeWord 0x534F = .ok (.seVxVy 3 4 0xF) := by decide

theorem witness_StepRunsDecodedInstruction :
    (at200 0x6A02).running ∧ (at200 0x6A02).pc.toNat ≤ 0x0FFE ∧
    decodeBytes [(at200 0x6A02).readByte (at200 0x6A02).pc.toNat, (at200 0x6A02).readByte ((at200 0x6A02).pc.toNat + 1)] =
      .ok (.ldVxByte 10 2, []) ∧
    (at200 0x6A02).port.pending = [] := by
  refine ⟨rfl, ?_, ?_, rfl⟩ <;> decide

theorem witness_StepRunsDecodedInstruction_listed :
    let s := (at200 0x6A02).setPort ⟨[.step 5, .tick], 0, 0, .nothing⟩
    s.running ∧ s.pc.toNat ≤ 0x0FFE ∧
    decodeBytes [s.readByte s.pc.toNat, s.readByte (s.pc.toNat + 1)] = .ok (.ldVxByte 10 2, []) ∧
    s.port.pending = .step 5 :: [.tick] := by
  refine ⟨rfl, ?_, ?_, rfl⟩ <;> decide

theorem witness_UnrecognizedWordIsReported :
    (at200 0x8128).running ∧ (at200 0x8128).fetch = some 0x8128 ∧
    decodeWord 0x8128 = .error (.unrecognized 0x8128) ∧
    (at200 0x0123).running ∧ (at200 0x0123).fetch = some 0x0123 ∧ decodeWord 0x0123 = .ok (.sysAddr 0x123) := by
  refine ⟨rfl, ?_, ?_, rfl, ?_, ?_⟩ <;> decide

theorem witness_FetchIsBigEndianOrFaults :
    ((State.reset.setPc 0x0FFF).running ∧ (State.reset.setPc 0x0FFF).pc.toNat > 0x0FFE) ∧
    ((State.reset.setPc 0x0FFE).running ∧ (State.reset.setPc 0x0FFE).pc.toNat ≤ 0x0FFE) := by
  refine ⟨⟨rfl, ?_⟩, ⟨rfl, ?_⟩⟩ <;> decide

theorem witness_PendingTransactionsTakeTurns :
    (State.reset.setPort ⟨[.tick, .present], 0, 0, .nothing⟩).port.pending = .tick :: [.present] ∧
    State.reset.port.pending = [] := ⟨rfl, rfl⟩

/-- A step that faults; one that runs a taken skip; one that fetches an unrecognized word. -/
theorem witness_PcAfterEachInstruction :
    ((at200 0x00EE).running ∧ ∃ u, runTransaction (.step 0) (at200 0x00EE) = .next u ∧ u.halted) ∧
    (((at200 0x3300).running ∧ (at200 0x3300).runs (.seVxByte 3 0)) ∧
      ∃ u, runTransaction (.step 0) (at200 0x3300) = .next u ∧ u.running ∧ u.pc = (at200 0x3300).pc + 4) ∧
    ((at200 0x8128).running ∧ (at200 0x8128).fetch = some 0x8128 ∧
      decodeWord 0x8128 = .error (.unrecognized 0x8128) ∧ ∃ u, runTransaction (.step 0) (at200 0x8128) = .next u) := by
  refine ⟨⟨rfl, _, rfl, rfl⟩, ⟨⟨rfl, rfl, 0x3300, ?_, ?_⟩, _, rfl, rfl, ?_⟩, rfl, ?_, ?_, _, rfl⟩ <;> decide

/-- The last address of a sprite of 15 rows inside memory, and just past it. -/
theorem witness_FaultsAreExactAndPrecise :
    faultOf (.drwVxVyNibble 0 0 15) (State.reset.setI 4081) = none ∧
    faultOf (.drwVxVyNibble 0 0 15) (State.reset.setI 4082) = some (.dataRange, 4096) ∧
    faultOf (.ldBVx 0) (State.reset.setI 0x0FFD) = none ∧
    faultOf (.ldBVx 0) (State.reset.setI 0x0FFE) = some (.dataRange, 4096) ∧
    faultOf (.ldMemIVx 0) (State.reset.setI 0xFFFF) = none ∧
    faultOf (.ldVxMemI 1) (State.reset.setI 0xFFFF) = some (.dataRange, 0xFFFF) ∧
    faultOf (.callAddr 0) (State.reset.setSp 15) = none ∧
    faultOf (.callAddr 0) (State.reset.setSp 16) = some (.stackOverflow, 16) ∧
    faultOf (.ret 0) (State.reset.setSp 1) = none ∧ faultOf (.ret 0) State.reset = some (.stackUnderflow, 0) ∧
    faultOf (.skpVx 4) (State.reset.setV 4 15) = none ∧
    faultOf (.sknpVx 4) (State.reset.setV 4 16) = some (.keyIndexRange, 16) := by
  decide

theorem witness_HaltedCoreIgnoresStep :
    haltedCore.halted ∧ Transaction.tick ≠ .reset ∧ ∀ r, Transaction.tick ≠ .step r := by
  refine ⟨rfl, ?_, fun r h => ?_⟩
  · decide
  · cases h

/-- The `RESET` comes after the two steps. -/
theorem witness_HaltedUntilReset :
    let s := haltedCore.setPort ⟨[.tick, .keys 1, .reset], 0, 0, .nothing⟩
    s.halted ∧ ∀ t ∈ s.port.pending.take 2, t ≠ .reset := by
  refine ⟨rfl, ?_⟩
  decide

/-- A core halted by `LD B, V1` at `I = 0x0FFE` (IX-18), and one halted by its fetch (CF-3). -/
def haltedByStore : State := ((at200 0xF133).setI 0x0FFE).setFault ⟨true, 2, 0x200, 0xF133, 0x1000⟩

def haltedByFetch : State := (State.reset.setPc 0x0FFF).setFault ⟨true, 1, 0x0FFF, 0, 0x0FFF⟩

/-- Halted states meet the invariant too, one for each kind of latch. -/
theorem witness_InvariantKeptByEveryStep :
    (haltedCore.Inv ∧ ∃ t, step haltedCore = .next t) ∧ (haltedByStore.Inv ∧ ∃ t, step haltedByStore = .next t) ∧
    (haltedByFetch.Inv ∧ ∃ t, step haltedByFetch = .next t) := by
  refine ⟨⟨⟨?_, fun h => ?_, fun _ => ⟨rfl, .inr ⟨?_, .ret 0, .stackUnderflow, 0, ?_, ?_, ?_, ?_⟩⟩, ?_, ?_⟩, _, rfl⟩,
    ⟨⟨?_, fun h => ?_, fun _ => ⟨rfl, .inr ⟨?_, .ldBVx 1, .dataRange, 4096, ?_, ?_, ?_, ?_⟩⟩, ?_, ?_⟩, _, rfl⟩,
    ⟨⟨?_, fun h => ?_, fun _ => ⟨rfl, .inl ⟨?_, ?_, ?_, ?_⟩⟩, ?_, ?_⟩, _, rfl⟩⟩
  all_goals first | exact Bool.noConfusion h | decide

/-- A latch of `LD B, V1` at `I = 4085`, where all three bytes lie in memory, does not describe its state. -/
theorem test_latch_must_fit :
    ¬(((at200 0xF133).setI 4085).setFault ⟨true, 2, 0x200, 0xF133, 0x1000⟩).latchDescribes := by
  rintro ⟨-, ⟨h, -⟩ | ⟨-, i, c, n, hd, hf, -⟩⟩
  · revert h; decide
  · have e : decodeWord 0xF133 = .ok (.ldBVx 1) := by decide
    have hi : Instr.ldBVx 1 = i := Except.ok.inj (e.symm.trans hd)
    subst hi
    have hn : faultOf (.ldBVx 1) (((at200 0xF133).setI 4085).setFault ⟨true, 2, 0x200, 0xF133, 0x1000⟩) = none := by
      decide
    rw [hn] at hf
    cases hf

/-- Something each clause speaks of does change. -/
theorem witness_OwnershipOfState :
    (∃ u, runTransaction (.load (some [7])) State.reset = .next u ∧ u.readByte 0x200 ≠ State.reset.readByte 0x200) ∧
    (∃ u, runTransaction (.step 0) (at200 0x6A02) = .next u ∧ u.getV 10 ≠ (at200 0x6A02).getV 10 ∧
      u.pc ≠ (at200 0x6A02).pc) ∧
    (∃ u, runTransaction (.step 0) (at200 0xA123) = .next u ∧ u.i ≠ (at200 0xA123).i) ∧
    (∃ u, runTransaction (.step 0) (at200 0x2ABC) = .next u ∧ u.stack.get 0 ≠ (at200 0x2ABC).stack.get 0 ∧
      u.sp ≠ (at200 0x2ABC).sp) ∧
    (∃ u, runTransaction .tick ((State.reset.setDt 3).setSt 1) = .next u ∧ u.dt ≠ 3 ∧ u.st ≠ 1) ∧
    (∃ u, runTransaction (.keys 1) State.reset = .next u ∧ u.keys ≠ State.reset.keys) ∧
    (∃ u, runTransaction (.step 0) (at200 0x00E0) = .next u ∧ u.redraw ≠ (at200 0x00E0).redraw) ∧
    (∃ u, runTransaction (.step 0) (dot 0 0 (at200 0x00E0)) = .next u ∧
      u.fb.pixel 0 0 ≠ (dot 0 0 (at200 0x00E0)).fb.pixel 0 0) ∧
    (∃ u, runTransaction (.step 0) (at200 0x00EE) = .next u ∧ u.fault ≠ (at200 0x00EE).fault) := by
  refine ⟨⟨_, rfl, ?_⟩, ⟨_, rfl, ?_, ?_⟩, ⟨_, rfl, ?_⟩, ⟨_, rfl, ?_, ?_⟩, ⟨_, rfl, ?_, ?_⟩, ⟨_, rfl, ?_⟩, ⟨_, rfl, ?_⟩,
    ⟨_, rfl, ?_⟩, ⟨_, rfl, ?_⟩⟩ <;> decide

theorem witness_LoadCopiesTheProgram :
    (List.replicate 3584 (0xAB : Byte)).length ≤ 3584 ∧ 3584 < (List.replicate 3585 (0xAB : Byte)).length := by
  simp only [List.length_replicate]
  decide

theorem witness_SelfJumpIsStable : (at200 0x1200).selfJump := by
  refine ⟨rfl, ?_, ?_⟩ <;> decide

theorem witness_RetPopsTheNewestAddress :
    0 < (State.reset.setSp 1).sp.val ∧ 0 < (State.reset.setSp 16).sp.val := by decide

theorem witness_CallPushesTheNextAddress : State.reset.sp.val < 16 ∧ (State.reset.setSp 15).sp.val < 16 := by decide

theorem witness_CallThenReturnComesBack :
    State.reset.sp.val < 16 ∧ ∃ t u, exec (.callAddr 0xABC) State.reset = .next t ∧
      (∀ i ∈ [Instr.ldVxByte 0 1, .cls 0], ¬touchesStack i) ∧ Executes [.ldVxByte 0 1, .cls 0] t u :=
  ⟨by decide, _, _, rfl, by simp [touchesStack], .more rfl (.more rfl (.done _))⟩

theorem witness_SkipsOnAnImmediate :
    (State.reset.setV 3 0x42).getV 3 = 0x42 ∧ (State.reset.setV 3 0x42).getV 3 ≠ 0x43 := by decide

theorem witness_SkipsOnTwoRegisters :
    (State.reset.setV 3 0x42).getV 3 ≠ (State.reset.setV 3 0x42).getV 4 ∧ State.reset.getV 3 = State.reset.getV 4 := by
  decide

/-- A destination other than VF, for `AddSetsCarry`, `SubtractsSetNotBorrow` and `ShiftsCaptureTheBitShiftedOut`; the
sums 255 and 256. -/
theorem witness_AddSetsCarry :
    (14 : Reg) ≠ VF ∧
    ((State.reset.setV 1 0xF0).setV 2 0x0F).getV 1 + ((State.reset.setV 1 0xF0).setV 2 0x0F).getV 2 = 255 ∧
    ((State.reset.setV 1 0xFF).setV 2 0x01).getV 1 + ((State.reset.setV 1 0xFF).setV 2 0x01).getV 2 = 0 := by decide

theorem witness_VfWrittenAsFlagOrDestination :
    (∃ t, exec (.addVxVy 1 2) ((State.reset.setV 1 0x80).setV 2 0x80) = .next t ∧
      t.getV VF ≠ ((State.reset.setV 1 0x80).setV 2 0x80).getV VF) ∧
    (∃ t, exec (.ldVxByte VF 9) State.reset = .next t ∧ t.getV VF ≠ State.reset.getV VF) ∧
    writesFlag (.drwVxVyNibble 0 0 5) = true ∧ faultOf (.drwVxVyNibble 0 0 5) State.reset = none := by
  refine ⟨⟨_, rfl, ?_⟩, ⟨_, rfl, ?_⟩, ?_, ?_⟩ <;> decide

theorem witness_LoadIndexWritesI : (0xFFF : Addr).toNat = 0xFFF ∧ 1 ≤ 1 := by decide

/-- The last legal base of three bytes. -/
theorem witness_StoreDecimalDigits : (State.reset.setI 0x0FFD).inRange 3 := by
  unfold State.inRange
  decide

/-- Fifteen bytes up to the last address; and no byte at all, from an `I` outside memory. -/
theorem witness_BlockTransfers :
    (State.reset.setI 0x0FF1).inRange (15 : Reg).val ∧ (State.reset.setI 0x2000).inRange (0 : Reg).val ∧
    (14 : Reg).val < (15 : Reg).val ∧ (15 : Reg).val ≤ (15 : Reg).val := by
  unfold State.inRange
  decide

/-- V0 stored to the odd address 0x209, then a fetch from 0x208: one byte as before, one new. -/
theorem witness_StoredBytesAreFetched :
    let s := ((at200 0).setV 0 0x2A).setI 0x209
    s.inRange (1 : Reg).val ∧ (∃ t, exec (.ldMemIVx 1) s = .next t) ∧ (0x208 : Word).toNat ≤ 0x0FFE ∧
    (0x208 ∉ s.dataAddrs (1 : Reg).val) ∧ s.dataAddr (0 : Reg).val = 0x208 + 1 := by
  refine ⟨?_, ⟨_, rfl⟩, ?_, ?_, ?_⟩
  · unfold State.inRange; decide
  · decide
  · decide
  · decide

theorem witness_SkipsOnAKey :
    ((State.reset.setV 4 15).getV 4).toNat ≤ 15 ∧
    ((State.reset.setV 4 15).setKeys 0x8000).key ((State.reset.setV 4 15).getV 4).toNat = true ∧
    (State.reset.setV 4 15).key ((State.reset.setV 4 15).getV 4).toNat = false := by decide

theorem witness_KeyWaitPollsThenTakesAPressedKey :
    State.reset.keys = 0 ∧ (State.reset.setKeys 0x0208).keys ≠ 0 := by decide

/-- The glyph of 0 at the origin covers cell (0, 0), not (1, 1); one state with a lit cell under it, one without; and
fifteen rows up to the last address. -/
theorem witness_DrawTogglesTheSpriteCells :
    (State.reset.setI 0x0FF1).inRange (15 : Nibble).toNat ∧ (State.reset.setI 0x050).inRange (5 : Nibble).toNat ∧
    (State.reset.setI 0x050).spriteCovers 0 1 5 0 0 ∧ ¬(State.reset.setI 0x300).spriteCovers 0 1 0 1 1 ∧
    (dot 0 0 (State.reset.setI 0x050)).lit 0 0 ∧ ¬(State.reset.setI 0x050).lit 0 0 := by
  refine ⟨?_, ?_, ⟨0, 0, ?_⟩, ?_, rfl, ?_⟩
  · unfold State.inRange; decide
  · unfold State.inRange; decide
  · decide
  · rintro ⟨r, c, h, -⟩
    exact Nat.not_lt_zero r h
  · unfold State.lit; decide

theorem witness_DoubleDrawRestoresTheFrame :
    (State.reset.setI 0x050).inRange (5 : Nibble).toNat ∧
    ∃ t u, exec (.drwVxVyNibble 0 1 5) (State.reset.setI 0x050) = .next t ∧ exec (.drwVxVyNibble 0 1 5) t = .next u ∧
      t.getV 0 = (State.reset.setI 0x050).getV 0 ∧ t.getV 1 = (State.reset.setI 0x050).getV 1 := by
  refine ⟨?_, _, _, rfl, rfl, rfl, rfl⟩
  unfold State.inRange; decide

/-- An instruction other than `LD DT, Vx`, for `ReadDelayTimer`; one other than `LD ST, Vx`, for `WriteSoundTimer`. -/
theorem witness_Timers :
    (∃ t, exec (.ldVxDt 3) (State.reset.setDt 9) = .next t) ∧ (∀ y, Instr.ldVxDt 3 ≠ .ldDtVx y) ∧
    ∃ u, runTransaction .tick (State.reset.setDt 9) = .next u ∧ u.dt ≠ (State.reset.setDt 9).dt := by
  refine ⟨⟨_, rfl⟩, fun y h => ?_, _, rfl, ?_⟩
  · cases h
  · decide

end Sys2Proof.Machine.Tests
end

section
/-! PROOFS of 10_state.md: `pc` after each instruction (R16) and which transaction writes which state (R28). Both rest on
one inversion of a `STEP`, `run_step_inversion`, and on `exec_frame_of_eq`. -/

namespace Sys2Proof.Machine

variable {s t u : State} {i : Instr} {r : Byte}

/-! ## What a `STEP` can do -/

theorem State.not_halted_of_running (h : s.running) : ¬s.halted := by
  simp only [State.running] at h
  simp [State.halted, h]

theorem State.running_congr (hf : t.fault = s.fault) (h : s.running) : t.running := by
  simpa only [State.running, hf] using h

@[simp] theorem changesOf_fault : (changesOf i s).fault = false := by cases i <;> rfl

/-- A `STEP` is that of a halted core; or it faults; or it reports an unrecognized word; or it executes an instruction
that does not fault, and changes only what `changesOf` names. -/
theorem run_step_inversion (h : runTransaction (.step r) s = .next u) :
    (s.halted ∧ u = s.answer (.stepped none)) ∨
    (s.running ∧ ∃ c ir info, u = (s.begin r).raise c ir info) ∨
    (s.running ∧ ∃ ir, u = (s.begin r).report ir) ∨
    ∃ i, s.runs i ∧ exec i (s.begin r) = .next u ∧ Frame (changesOf i s) (s.begin r) u := by
  rcases step_cases s with hh | ⟨hr, hf⟩ | ⟨ir, e, hr, hf, hd⟩ | ⟨i, hi⟩
  · rw [run_step_halted s r hh] at h
    cases h
    exact .inl ⟨hh, rfl⟩
  · rw [run_step_out s r hr hf] at h
    cases h
    exact .inr (.inl ⟨hr, _, _, _, rfl⟩)
  · rw [run_step_unrecognized s r hr hf hd] at h
    cases h
    exact .inr (.inr (.inl ⟨hr, _, rfl⟩))
  · rw [run_step_exec s r hi] at h
    rcases exec_frame_of_eq _ h with hc | hc
    · exact .inr (.inl ⟨hi.1, hc⟩)
    · exact .inr (.inr (.inr ⟨i, hi, h, hc⟩))

/-- A `STEP` of a running core that ends halted has faulted, and a fault keeps `pc` (60_exceptions.md R142). -/
theorem run_step_fault_pc (hr : s.running) (h : runTransaction (.step r) s = .next u) (hu : u.halted) :
    u.pc = s.pc := by
  rcases run_step_inversion h with ⟨hh, -⟩ | ⟨-, c, ir, info, rfl⟩ | ⟨-, ir, rfl⟩ | ⟨i, -, -, hc⟩
  · exact absurd hh (State.not_halted_of_running hr)
  · rfl
  · exact absurd hu (State.not_halted_of_running (State.running_congr rfl hr))
  · exact absurd hu (State.not_halted_of_running (State.running_congr (hc.fault changesOf_fault) hr))

/-! ## `pc` after an executed instruction (R16) -/

theorem zextAddr_eq_ofNat (a : Addr) : zextAddr a = BitVec.ofNat 16 a.toNat := by
  simp [zextAddr]

theorem zextAddr_add_zextByte (a : Addr) (b : Byte) : zextAddr a + zextByte b = BitVec.ofNat 16 (a.toNat + b.toNat) := by
  simp [zextAddr, zextByte, BitVec.ofNat_add]

/-- An executed instruction halts the core, or `pc` is what the table gives. -/
theorem exec_pc_cases (i : Instr) (s : State) : ∃ t, exec i s = .next t ∧ (t.halted ∨ t.pc = pcAfter i s) := by
  cases i with
  | jpAddr a => exact ⟨_, rfl, .inr (zextAddr_eq_ofNat a)⟩
  | jpV0Addr a => exact ⟨_, rfl, .inr (zextAddr_add_zextByte a _)⟩
  | callAddr a =>
    rcases Nat.lt_or_ge s.sp.val 16 with h | h
    · exact ⟨_, exec_call_push s a h, .inr (zextAddr_eq_ofNat a)⟩
    · exact ⟨_, exec_call_full s a (by omega), .inl rfl⟩
  | ret g =>
    rcases Nat.eq_zero_or_pos s.sp.val with h | h
    · exact ⟨_, exec_ret_empty s g h, .inl rfl⟩
    · refine ⟨_, exec_ret_pop s g h, .inr ?_⟩
      simp [pcAfter, Vector.get_eq_getElem, show s.sp.val - 1 < 16 by omega]
  | seVxByte => exact ⟨_, rfl, .inr (by simp [pcAfter, State.skipIf_pc])⟩
  | sneVxByte => exact ⟨_, rfl, .inr (by simp [pcAfter, State.skipIf_pc])⟩
  | seVxVy => exact ⟨_, rfl, .inr (by simp [pcAfter, State.skipIf_pc])⟩
  | sneVxVy => exact ⟨_, rfl, .inr (by simp [pcAfter, State.skipIf_pc])⟩
  | skpVx x =>
    rcases Nat.lt_or_ge 15 (s.getV x).toNat with h | h
    · exact ⟨_, exec_skp_out s x h, .inl rfl⟩
    · exact ⟨_, exec_skp_in s x h, .inr (State.skipIf_pc s _)⟩
  | sknpVx x =>
    rcases Nat.lt_or_ge 15 (s.getV x).toNat with h | h
    · exact ⟨_, exec_sknp_out s x h, .inl rfl⟩
    · exact ⟨_, exec_sknp_in s x h, .inr (by simp [pcAfter, State.skipIf_pc, State.key])⟩
  | ldVxK x =>
    by_cases h : s.keys = 0
    · exact ⟨_, exec_ldVxK_wait s x h, .inr (if_pos h).symm⟩
    · exact ⟨_, exec_ldVxK_take s x h, .inr (if_neg h).symm⟩
  | drwVxVyNibble x y n =>
    cases h : s.badDataAddr n.toNat with
    | some a => exact ⟨_, exec_drw_out s x y n h, .inl rfl⟩
    | none => exact ⟨_, exec_drw_in s x y n h, .inr rfl⟩
  | ldBVx x =>
    cases h : s.badDataAddr 3 with
    | some a => exact ⟨_, exec_ldBVx_out s x h, .inl rfl⟩
    | none => exact ⟨_, exec_ldBVx_in s x h, .inr rfl⟩
  | ldMemIVx x =>
    cases h : s.badDataAddr x.val with
    | some a => exact ⟨_, exec_ldMemIVx_out s x h, .inl rfl⟩
    | none => exact ⟨_, exec_ldMemIVx_in s x h, .inr rfl⟩
  | ldVxMemI x =>
    cases h : s.badDataAddr x.val with
    | some a => exact ⟨_, exec_ldVxMemI_out s x h, .inl rfl⟩
    | none => exact ⟨_, exec_ldVxMemI_in s x h, .inr rfl⟩
  | _ => exact ⟨_, rfl, .inr rfl⟩

theorem exec_pc (h : exec i s = .next t) (ht : t.running) : t.pc = pcAfter i s := by
  obtain ⟨t', h', hc⟩ := exec_pc_cases i s
  rw [h] at h'
  cases h'
  exact hc.resolve_left (State.not_halted_of_running ht)

/-- Settles O11: the table is `exec_pc`; a fault is `run_step_fault_pc`; each skip's entry is one of its two branches. -/
theorem pcAfterEachInstruction : Obligations.PcAfterEachInstruction := by
  unfold Obligations.PcAfterEachInstruction
  intro s u r hr h
  have table : ∀ i, s.runs i → u.running → u.pc = pcAfter i s := fun i hi hu =>
    exec_pc (s := s.begin r) ((run_step_exec s r hi).symm.trans h) hu
  refine ⟨run_step_fault_pc hr h, table, fun w hf hd => ?_, fun x y nn g hi hu => ?_⟩
  · rw [run_step_unrecognized s r hr hf hd] at h
    cases h
    rfl
  · rcases hi with hi | hi | hi | hi | hi | hi
    all_goals
      rw [table _ hi hu]
      exact (ite_eq_or_eq ..).symm

/-! ## Which instruction may change which field -/

section
variable (hi : s.runs i)
include hi

theorem runs_of_changes_bytes {a : Nat} (h : a ∈ (changesOf i s).bytes) :
    ∃ x, s.runs (.ldBVx x) ∨ s.runs (.ldMemIVx x) := by
  cases i with
  | ldBVx x => exact ⟨x, .inl hi⟩
  | ldMemIVx x => exact ⟨x, .inr hi⟩
  | _ => contradiction

theorem runs_of_changes_i (h : (changesOf i s).i = true) :
    (∃ a, s.runs (.ldIAddr a)) ∨ (∃ x, s.runs (.addIVx x)) ∨ ∃ x, s.runs (.ldFVx x) := by
  cases i with
  | ldIAddr a => exact .inl ⟨a, hi⟩
  | addIVx x => exact .inr (.inl ⟨x, hi⟩)
  | ldFVx x => exact .inr (.inr ⟨x, hi⟩)
  | _ => contradiction

theorem runs_of_changes_slots {j : Fin 16} (h : j ∈ (changesOf i s).slots) : ∃ a, s.runs (.callAddr a) := by
  cases i with
  | callAddr a => exact ⟨a, hi⟩
  | _ => contradiction

theorem runs_of_changes_sp (h : (changesOf i s).sp = true) :
    (∃ a, s.runs (.callAddr a)) ∨ ∃ g, s.runs (.ret g) := by
  cases i with
  | callAddr a => exact .inl ⟨a, hi⟩
  | ret g => exact .inr ⟨g, hi⟩
  | _ => contradiction

theorem runs_of_changes_dt (h : (changesOf i s).dt = true) : ∃ x, s.runs (.ldDtVx x) := by
  cases i with
  | ldDtVx x => exact ⟨x, hi⟩
  | _ => contradiction

theorem runs_of_changes_st (h : (changesOf i s).st = true) : ∃ x, s.runs (.ldStVx x) := by
  cases i with
  | ldStVx x => exact ⟨x, hi⟩
  | _ => contradiction

theorem runs_of_changes_fb (h : (changesOf i s).fb = true) :
    (∃ g, s.runs (.cls g)) ∨ ∃ x y n, s.runs (.drwVxVyNibble x y n) := by
  cases i with
  | cls g => exact .inl ⟨g, hi⟩
  | drwVxVyNibble x y n => exact .inr ⟨x, y, n, hi⟩
  | _ => contradiction

end

/-- The instructions that may change `redraw` are those that may change `fb`. -/
theorem changesOf_redraw : (changesOf i s).redraw = (changesOf i s).fb := by cases i <;> rfl

/-- An instruction that changes `redraw` sets it (45_display.md R120, R123). -/
theorem exec_redraw_set (h : exec i s = .next t) (hc : t.redraw ≠ s.redraw) : t.redraw = true := by
  rcases exec_frame_of_eq s h with ⟨c, ir, info, rfl⟩ | hf
  · exact absurd rfl hc
  · have hw := eq_true_of_ne_false (mt hf.redraw hc)
    cases i with
    | cls g =>
      cases h
      rfl
    | drwVxVyNibble x y n =>
      cases hb : s.badDataAddr n.toNat with
      | some a =>
        rw [exec_drw_out s x y n hb] at h
        cases h
        exact absurd rfl hc
      | none =>
        rw [exec_drw_in s x y n hb] at h
        cases h
        rfl
    | _ => contradiction

/-! ## Who writes what (R28) -/

/-- A `LOAD` writes memory at most inside the loaded range; apart from memory it only answers (20_memory.md R52, R53). -/
theorem State.load_inversion (s : State) (bytes : Option (List Byte)) :
    ∃ m res, s.load bytes = (s.setMem m).answer res ∧ ∀ a, m.read a ≠ s.mem.read a →
      ∃ bs, bytes = some bs ∧ 0x200 ≤ a ∧ a < 0x200 + bs.length := by
  cases bytes with
  | none => exact ⟨s.mem, _, rfl, fun a h => absurd rfl h⟩
  | some bs =>
    by_cases hl : bs.length > Config.progMax
    · exact ⟨s.mem, _, if_pos hl, fun a h => absurd rfl h⟩
    · refine ⟨_, _, if_neg hl, fun a h => ⟨bs, rfl, ?_⟩⟩
      rw [Memory.read_writeBytes] at h
      exact of_not_not fun hn => h (if_neg hn)

/-- Settles O19, by the transaction; a `STEP` by `run_step_inversion`, and there an executed instruction by its frame. -/
theorem ownershipOfState : Obligations.OwnershipOfState := by
  unfold Obligations.OwnershipOfState
  intro t s u h
  cases t with
  | reset =>
    cases h
    simp [State.sameBlock, State.resetBlock]
  | load bytes =>
    obtain ⟨m, res, hl, hm⟩ := s.load_inversion bytes
    have hu : u = (s.setMem m).answer res := by
      cases h
      exact hl
    subst hu
    simpa [State.readByte, State.getV] using hm
  | tick =>
    cases h
    simp [State.tick, State.readByte, State.getV]
  | keys k =>
    cases h
    simp [State.writeKeys, State.readByte, State.getV]
  | present =>
    cases h
    simp [State.present, State.readByte, State.getV]
  | step r =>
    rcases run_step_inversion h with ⟨-, rfl⟩ | ⟨hr, c, ir, info, rfl⟩ | ⟨hr, ir, rfl⟩ | ⟨i, hi, he, hf⟩
    · simp [State.readByte, State.getV]
    · simp [State.readByte, State.getV, State.halted, hr]
    · simpa [State.readByte, State.getV, State.running] using hr
    · refine ⟨nofun, fun a ha => ?_, fun _ _ => .inr ⟨r, rfl⟩, fun hc => ?_, fun _ => ?_, fun j hj => ?_, fun hc => ?_,
        fun hc => ?_, fun hc => ?_, fun hc => absurd hf.keys hc, nofun, fun hc => ?_, fun hc => ?_, nofun,
        fun hc => absurd (hf.fault changesOf_fault) hc⟩
      · obtain ⟨x, hx⟩ := runs_of_changes_bytes hi (of_not_not (mt (hf.bytes a) ha))
        exact .inr (.inr ⟨r, x, rfl, hx⟩)
      · exact .inr ⟨r, rfl, runs_of_changes_i hi (eq_true_of_ne_false (mt hf.i hc))⟩
      · exact .inr ⟨r, rfl, State.running_congr (hf.fault changesOf_fault) hi.1⟩
      · obtain ⟨a, ha⟩ := runs_of_changes_slots hi (of_not_not (mt (hf.slots j) hj))
        exact .inr ⟨r, a, rfl, ha⟩
      · exact .inr ⟨r, rfl, runs_of_changes_sp hi (eq_true_of_ne_false (mt hf.sp hc))⟩
      · obtain ⟨x, hx⟩ := runs_of_changes_dt hi (eq_true_of_ne_false (mt hf.dt hc))
        exact .inr (.inl ⟨r, x, rfl, hx⟩)
      · obtain ⟨x, hx⟩ := runs_of_changes_st hi (eq_true_of_ne_false (mt hf.st hc))
        exact .inr (.inl ⟨r, x, rfl, hx⟩)
      · exact .inr ⟨r, rfl, runs_of_changes_fb hi (eq_true_of_ne_false (mt hf.fb hc))⟩
      · have hw := eq_true_of_ne_false (mt hf.redraw hc)
        exact .inr (.inr ⟨r, rfl, exec_redraw_set he hc, runs_of_changes_fb hi (changesOf_redraw.symm.trans hw)⟩)

end Sys2Proof.Machine
end

section
/-! PROOFS of 41_register_ops.md: `LD Vx, byte` (R91), from its word to the state after it. -/

namespace Sys2Proof

/-- A word of format I (30_encoding.md R57) as the number the statements write. -/
theorem wordI_regBits_eq_ofNat (p : Nibble) (x : Reg) (nn : Byte) :
    wordI p (regBits x) nn = BitVec.ofNat 16 (p.toNat * 4096 + x.val * 256 + nn.toNat) := by
  have hx : (regBits x).toNat = x.val := congrArg Fin.val (regOf_regBits x)
  rw [← hx, ← wordI_toNat, BitVec.ofNat_toNat, BitVec.setWidth_eq]

/-- Group 6 holds one instruction, and every word of the group is one (30_encoding.md R61, row 9). -/
theorem decodeWord_group6 {w : Word} (hp : fieldP w = 0x6) :
    decodeWord w = .ok (.ldVxByte (regOf (fieldX w)) (fieldNN w)) := by
  simp [decodeWord, hp]

theorem decodeWord_wordI_6 (x : Reg) (nn : Byte) : decodeWord (wordI 0x6 (regBits x) nn) = .ok (.ldVxByte x nn) := by
  rw [decodeWord_group6 (fieldP_wordI ..), fieldX_wordI, fieldNN_wordI, regOf_regBits]

end Sys2Proof

namespace Sys2Proof.Machine

/-- Settles O31: the word by the fields of its format; the state by the rules of a register write and the advance. -/
theorem loadImmediateWritesVx : Obligations.LoadImmediateWritesVx := by
  unfold Obligations.LoadImmediateWritesVx
  intro x nn s
  have hw : wordI 0x6 (regBits x) nn = BitVec.ofNat 16 (0x6000 + x.val * 256 + nn.toNat) :=
    wordI_regBits_eq_ofNat 0x6 x nn
  have hv : (s.setV x nn).advance.getV x = nn := by rw [State.getV_advance, State.getV_setV, if_pos rfl]
  exact ⟨hw ▸ decodeWord_wordI_6 x nn, _, rfl, hv, rfl, Frame.ofSetV s x nn⟩

end Sys2Proof.Machine
end

section
/-! PROOFS of 42_index_ops.md: `LD I, addr` (R105), from its word to the state after it. -/

namespace Sys2Proof

/-- A word of format A (30_encoding.md R57) as the number the statements write. -/
theorem wordA_eq_ofNat (p : Nibble) (nnn : Addr) : wordA p nnn = BitVec.ofNat 16 (p.toNat * 4096 + nnn.toNat) := by
  rw [← wordA_toNat, BitVec.ofNat_toNat, BitVec.setWidth_eq]

/-- Group A holds one instruction, and every word of the group is one (30_encoding.md R61). -/
theorem decodeWord_groupA {w : Word} (hp : fieldP w = 0xA) : decodeWord w = .ok (.ldIAddr (fieldNNN w)) := by
  simp [decodeWord, hp]

theorem decodeWord_wordA_A (nnn : Addr) : decodeWord (wordA 0xA nnn) = .ok (.ldIAddr nnn) := by
  rw [decodeWord_groupA (fieldP_wordA ..), fieldNNN_wordA]

end Sys2Proof

namespace Sys2Proof.Machine

theorem zextAddr_toNat (a : Addr) : (zextAddr a).toNat = a.toNat :=
  BitVec.toNat_setWidth_of_le (by decide)

/-- A write of `I` and the advance. -/
theorem Frame.ofSetI (s : State) (w : Word) : Frame { i := true, pc := true } s (s.setI w).advance := by
  constructor
  case i | pc => nofun
  all_goals intros; rfl

/-- Settles O38: the word by the fields of its format; the addresses from `I` up by `I = NNN` as a number of 12 bits. -/
theorem loadIndexWritesI : Obligations.LoadIndexWritesI := by
  unfold Obligations.LoadIndexWritesI
  intro nnn s
  have hw : wordA 0xA nnn = BitVec.ofNat 16 (0xA000 + nnn.toNat) := wordA_eq_ofNat 0xA nnn
  have hd (k : Nat) : (s.setI (zextAddr nnn)).advance.dataAddr k = nnn.toNat + k :=
    congrArg (· + k) (zextAddr_toNat nnn)
  refine ⟨hw ▸ decodeWord_wordA_A nnn, _, rfl, zextAddr_toNat nnn, ?_, fun hn k hk => ?_, rfl, Frame.ofSetI s _⟩
  · rw [hd]
    exact nnn.isLt
  · rw [hd]
    omega

end Sys2Proof.Machine
end

section
/-! PROOFS of 45_display.md: `CLS` (R123), from its word to the state after it. -/

namespace Sys2Proof

/-- A word of format I (30_encoding.md R57) as a number, its `ir[11:8]` any nibble. -/
theorem wordI_eq_ofNat (p x : Nibble) (nn : Byte) :
    wordI p x nn = BitVec.ofNat 16 (p.toNat * 4096 + x.toNat * 256 + nn.toNat) := by
  rw [← wordI_toNat, BitVec.ofNat_toNat, BitVec.setWidth_eq]

/-- Every word of group 0 is an instruction, which one the low byte says (30_encoding.md R60). -/
theorem decodeWord_group0 {w : Word} (hp : fieldP w = 0x0) : decodeWord w = .ok (decodeGroup0 w) := by
  simp [decodeWord, hp]

theorem decodeGroup0_E0 {w : Word} (hn : fieldNN w = 0xE0) : decodeGroup0 w = .cls (fieldX w) :=
  if_pos hn

theorem decodeWord_wordI_0_E0 (g : Nibble) : decodeWord (wordI 0x0 g 0xE0) = .ok (.cls g) := by
  rw [decodeWord_group0 (fieldP_wordI ..), decodeGroup0_E0 (fieldNN_wordI ..), fieldX_wordI]

end Sys2Proof

namespace Sys2Proof.Machine

@[simp] theorem FrameBuffer.pixel_clear (y : Fin 32) (x : Fin 64) : FrameBuffer.clear.pixel y x = false := by
  simp only [FrameBuffer.pixel, FrameBuffer.clear, Vector.get_eq_getElem, Vector.getElem_replicate]

/-- A write of the frame buffer and of `redraw`, and the advance. -/
theorem Frame.ofSetFbRedraw (s : State) (f : FrameBuffer) (b : Bool) :
    Frame { pc := true, fb := true, redraw := true } s ((s.setFb f).setRedraw b).advance := by
  constructor
  case fb | redraw | pc => nofun
  all_goals intros; rfl

/-- Settles O48: the word by the fields of its format, whatever `ir[11:8]`; every pixel by the cleared frame buffer. -/
theorem clearScreenClearsAndSetsRedraw : Obligations.ClearScreenClearsAndSetsRedraw := by
  unfold Obligations.ClearScreenClearsAndSetsRedraw
  intro g s
  have hw : wordI 0x0 g 0xE0 = BitVec.ofNat 16 (g.toNat * 256 + 0xE0) := by
    simpa using wordI_eq_ofNat 0x0 g 0xE0
  exact ⟨hw ▸ decodeWord_wordI_0_E0 g, _, rfl, FrameBuffer.pixel_clear, rfl, rfl, Frame.ofSetFbRedraw s _ _⟩

end Sys2Proof.Machine
end

section
/-! PROOFS of 46_timers.md: the three timer instructions (R127 to R129), each from its word to the state after it; what
`dt` and the tone are after any number of ticks; and that no instruction reads `st`. -/

namespace Sys2Proof

/-! ## The words `FX07`, `FX15`, `FX18` -/

theorem wordI_F_eq_ofNat (x : Reg) (nn : Byte) :
    wordI 0xF (regBits x) nn = BitVec.ofNat 16 (0xF000 + nn.toNat + x.val * 256) := by
  rw [wordI_regBits_eq_ofNat, Nat.add_right_comm]
  rfl

/-- Every word of group F is decoded by its low byte (30_encoding.md R60). -/
theorem decodeWord_groupF {w : Word} (hp : fieldP w = 0xF) : decodeWord w = decodeGroupF w := by
  simp [decodeWord, hp]

theorem decodeGroupF_07 {w : Word} (hn : fieldNN w = 0x07) : decodeGroupF w = .ok (.ldVxDt (regOf (fieldX w))) := by
  simp [decodeGroupF, hn]

theorem decodeGroupF_15 {w : Word} (hn : fieldNN w = 0x15) : decodeGroupF w = .ok (.ldDtVx (regOf (fieldX w))) := by
  simp [decodeGroupF, hn]

theorem decodeGroupF_18 {w : Word} (hn : fieldNN w = 0x18) : decodeGroupF w = .ok (.ldStVx (regOf (fieldX w))) := by
  simp [decodeGroupF, hn]

/-- A word `FXnn`, of an `nn` that group F decodes to the instruction `mk`, is `mk` of register X. -/
theorem decodeWord_F {nn : Byte} {mk : Reg → Instr}
    (h : ∀ {w : Word}, fieldNN w = nn → decodeGroupF w = .ok (mk (regOf (fieldX w)))) (x : Reg) :
    decodeWord (BitVec.ofNat 16 (0xF000 + nn.toNat + x.val * 256)) = .ok (mk x) := by
  rw [← wordI_F_eq_ofNat, decodeWord_groupF (fieldP_wordI ..), h (fieldNN_wordI ..), fieldX_wordI, regOf_regBits]

end Sys2Proof

namespace Sys2Proof.Machine

/-! ## Writing a timer -/

/-- A write of the delay timer and the advance. -/
theorem Frame.ofSetDt (s : State) (b : Byte) : Frame { dt := true, pc := true } s (s.setDt b).advance := by
  constructor
  case dt | pc => nofun
  all_goals intros; rfl

/-- A write of the sound timer and the advance. -/
theorem Frame.ofSetSt (s : State) (b : Byte) : Frame { st := true, pc := true } s (s.setSt b).advance := by
  constructor
  case st | pc => nofun
  all_goals intros; rfl

theorem changesOf_dt {i : Instr} (hi : ∀ y, i ≠ .ldDtVx y) (s : State) : (changesOf i s).dt = false := by
  cases i with
  | ldDtVx y => exact absurd rfl (hi y)
  | _ => rfl

/-- Only `LD DT, Vx` changes the delay timer (46_timers.md R127). -/
theorem exec_dt {i : Instr} {s t : State} (h : exec i s = .next t) (hi : ∀ y, i ≠ .ldDtVx y) : t.dt = s.dt := by
  rcases exec_frame_of_eq s h with ⟨c, ir, info, rfl⟩ | hf
  · rfl
  · exact hf.dt (changesOf_dt hi s)

/-! ## Ticks (60_exceptions.md R155, R156) -/

@[simp] theorem State.tick_dt (s : State) : s.tick.dt = countDown s.dt := rfl
@[simp] theorem State.tick_st (s : State) : s.tick.st = countDown s.st := rfl
@[simp] theorem State.tick_result (s : State) : s.tick.port.result = .ticked (decide (s.st = 1)) := rfl
@[simp] theorem State.ticks_zero (s : State) : s.ticks 0 = s := rfl
@[simp] theorem State.ticks_succ (s : State) (k : Nat) : s.ticks (k + 1) = (s.ticks k).tick := rfl

theorem State.ticks_dt_toNat (s : State) (k : Nat) : (s.ticks k).dt.toNat = s.dt.toNat - k := by
  induction k with
  | zero => rfl
  | succ k ih => rw [ticks_succ, tick_dt, countDown_toNat, ih, Nat.sub_sub]

theorem State.ticks_st_toNat (s : State) (k : Nat) : (s.ticks k).st.toNat = s.st.toNat - k := by
  induction k with
  | zero => rfl
  | succ k ih => rw [ticks_succ, tick_st, countDown_toNat, ih, Nat.sub_sub]

/-- The `k + 1`-th tick finds `st = 1`, and signals the tone, exactly when `st` was `k + 1` at the start. -/
theorem State.ticks_succ_result (s : State) (k : Nat) :
    (s.ticks (k + 1)).port.result = .ticked (decide (s.st.toNat = k + 1)) := by
  have hone : (s.ticks k).st = 1 ↔ s.st.toNat = k + 1 := by
    rw [← BitVec.toNat_inj, ticks_st_toNat]
    show s.st.toNat - k = 1 ↔ _
    omega
  rw [ticks_succ, tick_result, decide_eq_decide.mpr hone]

/-! ## No instruction reads `st` (46_timers.md R129) -/

theorem State.skipIf_setSt (s : State) (a : Byte) (c : Bool) : (s.setSt a).skipIf c = (s.skipIf c).setSt a := by
  cases c <;> rfl

/-- With another value in `st` an instruction takes the same case of its rule, and answers the same state but for `st`,
unless it is `LD ST, Vx`. -/
theorem exec_setSt (i : Instr) (s : State) (a : Byte) (hi : ∀ y, i ≠ .ldStVx y) :
    ∃ t, exec i s = .next t ∧ exec i (s.setSt a) = .next (t.setSt a) := by
  have hskip (c : Bool) : Host.Outcome.next ((s.setSt a).skipIf c) = (.next ((s.skipIf c).setSt a) : Answer) :=
    congrArg _ (State.skipIf_setSt s a c)
  cases i with
  | ldStVx y => exact absurd rfl (hi y)
  | seVxByte | sneVxByte | seVxVy | sneVxVy => exact ⟨_, rfl, hskip _⟩
  | skpVx x =>
    rcases Nat.lt_or_ge 15 (s.getV x).toNat with h | h
    · exact ⟨_, exec_skp_out s x h, exec_skp_out (s.setSt a) x h⟩
    · exact ⟨_, exec_skp_in s x h, (exec_skp_in (s.setSt a) x h).trans (hskip _)⟩
  | sknpVx x =>
    rcases Nat.lt_or_ge 15 (s.getV x).toNat with h | h
    · exact ⟨_, exec_sknp_out s x h, exec_sknp_out (s.setSt a) x h⟩
    · exact ⟨_, exec_sknp_in s x h, (exec_sknp_in (s.setSt a) x h).trans (hskip _)⟩
  | callAddr n =>
    rcases Nat.lt_or_ge s.sp.val 16 with h | h
    · exact ⟨_, exec_call_push s n h, exec_call_push (s.setSt a) n h⟩
    · have hsp : s.sp.val = 16 := by omega
      exact ⟨_, exec_call_full s n hsp, exec_call_full (s.setSt a) n hsp⟩
  | ret g =>
    rcases Nat.eq_zero_or_pos s.sp.val with h | h
    · exact ⟨_, exec_ret_empty s g h, exec_ret_empty (s.setSt a) g h⟩
    · exact ⟨_, exec_ret_pop s g h, exec_ret_pop (s.setSt a) g h⟩
  | ldVxK x =>
    by_cases h : s.keys = 0
    · exact ⟨_, exec_ldVxK_wait s x h, exec_ldVxK_wait (s.setSt a) x h⟩
    · exact ⟨_, exec_ldVxK_take s x h, exec_ldVxK_take (s.setSt a) x h⟩
  | drwVxVyNibble x y n =>
    cases h : s.badDataAddr n.toNat with
    | some b => exact ⟨_, exec_drw_out s x y n h, exec_drw_out (s.setSt a) x y n h⟩
    | none => exact ⟨_, exec_drw_in s x y n h, exec_drw_in (s.setSt a) x y n h⟩
  | ldBVx x =>
    cases h : s.badDataAddr 3 with
    | some b => exact ⟨_, exec_ldBVx_out s x h, exec_ldBVx_out (s.setSt a) x h⟩
    | none => exact ⟨_, exec_ldBVx_in s x h, exec_ldBVx_in (s.setSt a) x h⟩
  | ldMemIVx x =>
    cases h : s.badDataAddr x.val with
    | some b => exact ⟨_, exec_ldMemIVx_out s x h, exec_ldMemIVx_out (s.setSt a) x h⟩
    | none => exact ⟨_, exec_ldMemIVx_in s x h, exec_ldMemIVx_in (s.setSt a) x h⟩
  | ldVxMemI x =>
    cases h : s.badDataAddr x.val with
    | some b => exact ⟨_, exec_ldVxMemI_out s x h, exec_ldVxMemI_out (s.setSt a) x h⟩
    | none => exact ⟨_, exec_ldVxMemI_in s x h, exec_ldVxMemI_in (s.setSt a) x h⟩
  | _ => exact ⟨_, rfl, rfl⟩

/-- `LD ST, Vx` overwrites `st`, so that its former value is lost. -/
theorem exec_ldStVx_setSt (y : Reg) (s : State) (a : Byte) : exec (.ldStVx y) (s.setSt a) = exec (.ldStVx y) s := rfl

/-! ## The obligations -/

/-- Settles O49: the instructions that change `dt` by `exec_dt`, the transactions by the table of writers, O19. -/
theorem readDelayTimer : Obligations.ReadDelayTimer := by
  unfold Obligations.ReadDelayTimer
  intro x s
  have hv : (s.setV x s.dt).advance.getV x = s.dt := by rw [State.getV_advance, State.getV_setV, if_pos rfl]
  refine ⟨decodeWord_F decodeGroupF_07 x, ⟨_, rfl, hv, rfl, rfl, Frame.ofSetV s x s.dt⟩, fun _ _ => exec_dt,
    fun tr u hu hne => ?_⟩
  obtain ⟨-, -, -, -, -, -, -, hdt, -⟩ := ownershipOfState tr s u hu
  rcases hdt hne with hr | ⟨r, y, hs, hy⟩ | ⟨ht, -⟩
  · exact .inl hr
  · exact .inr (.inr ⟨r, y, hs, hy⟩)
  · exact .inr (.inl ht)

/-- Settles O50: the word by the fields of its format; the countdown by induction on the number of ticks. -/
theorem writeDelayTimer : Obligations.WriteDelayTimer := by
  unfold Obligations.WriteDelayTimer
  intro x s
  exact ⟨decodeWord_F decodeGroupF_15 x, _, rfl, rfl, rfl, Frame.ofSetDt s _, State.ticks_dt_toNat _⟩

/-- Settles O51: the tone by the countdown of `st`; that no instruction reads `st` by `exec_setSt`. -/
theorem writeSoundTimer : Obligations.WriteSoundTimer := by
  unfold Obligations.WriteSoundTimer
  intro x s
  refine ⟨decodeWord_F decodeGroupF_18 x, ⟨_, rfl, rfl, rfl, Frame.ofSetSt s _, State.ticks_succ_result _⟩,
    fun i t a h => ?_⟩
  by_cases hi : ∃ y, i = .ldStVx y
  · rw [if_pos hi]
    obtain ⟨y, rfl⟩ := hi
    exact (exec_ldStVx_setSt y s a).trans h
  · rw [if_neg hi]
    obtain ⟨t', ht, hst⟩ := exec_setSt i s a (not_exists.mp hi)
    cases h.symm.trans ht
    exact hst

end Sys2Proof.Machine
end

section
/-! PROOFS of 60_exceptions.md: `TICK` as one transaction (R155), the same on a halted core (R143). -/

namespace Sys2Proof.Machine

/-- `TICK` does not look at the fault latch: it ends in the state one tick later (60_exceptions.md R143, R155). -/
@[simp] theorem runTransaction_tick (s : State) : runTransaction .tick s = .next s.tick := rfl

/-- The two timers are all the block state that `TICK` writes (60_exceptions.md R155). -/
theorem State.tick_sameBlock (s : State) : ((s.setDt (countDown s.dt)).setSt (countDown s.st)).sameBlock s.tick := rfl

/-- Settles O21: the state one tick later, each timer by `countDown_toNat`. -/
theorem tickCountsBothTimersDown : Obligations.TickCountsBothTimersDown := by
  unfold Obligations.TickCountsBothTimersDown
  intro s
  have hdt : s.tick.dt.toNat = s.dt.toNat - 1 := countDown_toNat s.dt
  have hst : s.tick.st.toNat = s.st.toNat - 1 := countDown_toNat s.st
  exact ⟨s.tick, runTransaction_tick s, hdt, hst, s.tick_result, s.tick_sameBlock⟩

end Sys2Proof.Machine
end

section
/-! PROOFS of 30_encoding.md: decoding and encoding are inverse to each other (R61, R62), the decoder is the opcode map
read as a table (R61), and the words that are no instruction (R63). -/

namespace Sys2Proof

/-! ## Decode and encode -/

theorem isSysAddr_iff (nnn : Addr) :
    isSysAddr nnn = true ↔ nnn.extractLsb' 0 8 ≠ 0xE0#8 ∧ nnn.extractLsb' 0 8 ≠ 0xEE#8 := by
  simp [isSysAddr]

/-- The fields of an encoded instruction are its operands, and the dispatch on them finds its row. -/
theorem decodeWord_encode (i : Instr) (h : i.wellFormed = true) : decodeWord (encode i) = .ok i := by
  cases i with
  | sysAddr nnn =>
    obtain ⟨hcls, hret⟩ := (isSysAddr_iff nnn).mp h
    simp [encode, decodeWord, decodeGroup0, hcls, hret]
  | cls | ret => simp [encode, decodeWord, decodeGroup0]
  | ldVxVy | orVxVy | andVxVy | xorVxVy | addVxVy | subVxVy | shrVx | subnVxVy | shlVx =>
    simp [encode, decodeWord, decodeGroup8]
  | skpVx | sknpVx => simp [encode, decodeWord, decodeGroupE]
  | ldVxDt | ldVxK | ldDtVx | ldStVx | addIVx | ldFVx | ldBVx | ldMemIVx | ldVxMemI =>
    simp [encode, decodeWord, decodeGroupF]
  | _ => simp [encode, decodeWord]

/-- Settles O1, by the instruction. -/
theorem decodeEncodeRoundTrip : Obligations.DecodeEncodeRoundTrip := decodeWord_encode

/-- A decoded instruction's word is the word, by the shape of its format; the groups that dispatch further by their own
lemmas. -/
theorem encode_decodeWord {w : Word} {i : Instr} (h : decodeWord w = .ok i) :
    encode i = w ∧ i.wellFormed = true := by
  simp only [decodeWord] at h
  split at h
  case h_1 hp => cases h; exact encode_decodeGroup0 (nibble_of_toNat hp)
  case h_9 hp => exact encode_decodeGroup8 (nibble_of_toNat hp) h
  case h_15 hp => exact encode_decodeGroupE (nibble_of_toNat hp) h
  case h_16 hp => exact encode_decodeGroupF (nibble_of_toNat hp) h
  case h_17 => cases h
  case h_2 hp | h_3 hp | h_11 hp | h_12 hp =>
    cases h
    exact ⟨wordA_of_fields (nibble_of_toNat hp) rfl, rfl⟩
  case h_6 hp | h_10 hp | h_14 hp =>
    cases h
    simp only [encode, regBits_regOf]
    exact ⟨wordR_of_fields (nibble_of_toNat hp) rfl rfl rfl, rfl⟩
  case h_4 hp | h_5 hp | h_7 hp | h_8 hp | h_13 hp =>
    cases h
    simp only [encode, regBits_regOf]
    exact ⟨wordI_of_fields (nibble_of_toNat hp) rfl rfl, rfl⟩

/-- Settles O2, by the primary opcode. -/
theorem encodeInvertsDecode : Obligations.EncodeInvertsDecode := fun _ _ => encode_decodeWord

/-- Settles O5: the decoder run on each word. -/
theorem sampleWordsDecode : Obligations.SampleWordsDecode := by
  unfold Obligations.SampleWordsDecode
  decide

/-! ## Words under the three masks of the opcode map, as numbers -/

theorem nibble_and_F (p : Nibble) : p &&& 0xF = p := BitVec.and_allOnes

theorem byte_and_FF (b : Byte) : b &&& 0xFF = b := BitVec.and_allOnes

theorem and_F000_eq_iff (w v : Word) : w &&& 0xF000 = v ↔ w.toNat / 4096 = v.toNat / 4096 ∧ 0 = v.toNat % 4096 := by
  have h : w &&& 0xF000 = wordA (fieldP w) (fieldNNN w &&& 0) := by
    rw [← nibble_and_F (fieldP w), ← wordA_and, wordA_fields]
    rfl
  rw [h, ← BitVec.toNat_inj, wordA_toNat, fieldP_toNat, show (fieldNNN w &&& 0).toNat = 0 by simp]
  omega

theorem and_F0FF_eq_iff (w v : Word) :
    w &&& 0xF0FF = v ↔ w.toNat / 4096 = v.toNat / 4096 ∧ w.toNat % 256 = v.toNat % 4096 := by
  have h : w &&& 0xF0FF = wordI (fieldP w) (fieldX w &&& 0) (fieldNN w) := by
    rw [← nibble_and_F (fieldP w), ← byte_and_FF (fieldNN w), ← wordI_and, wordI_fields]
    rfl
  rw [h, ← BitVec.toNat_inj, wordI_toNat, fieldP_toNat, fieldNN_toNat, show (fieldX w &&& 0).toNat = 0 by simp]
  omega

theorem and_F00F_eq_iff (w v : Word) :
    w &&& 0xF00F = v ↔ w.toNat / 4096 = v.toNat / 4096 ∧ w.toNat % 16 = v.toNat % 4096 := by
  have h : w &&& 0xF00F = wordR (fieldP w) (fieldX w &&& 0) (fieldY w &&& 0) (fieldN w) := by
    rw [← nibble_and_F (fieldP w), ← nibble_and_F (fieldN w), ← wordR_and, wordR_fields]
    rfl
  rw [h, ← BitVec.toNat_inj, wordR_toNat, fieldP_toNat, fieldN_toNat, show (fieldX w &&& 0).toNat = 0 by simp,
    show (fieldY w &&& 0).toNat = 0 by simp]
  omega

theorem fieldNN_eq_iff (w : Word) (b : Byte) : fieldNN w = b ↔ w.toNat % 256 = b.toNat := by
  rw [← BitVec.toNat_inj, fieldNN_toNat]

/-! ## The table's operands are the fields -/

theorem regOf_fieldX_eq (w : Word) : regOf (fieldX w) = ⟨w.toNat / 256 % 16, Nat.mod_lt _ (by decide)⟩ :=
  Fin.ext (fieldX_toNat w)

theorem regOf_fieldY_eq (w : Word) : regOf (fieldY w) = ⟨w.toNat / 16 % 16, Nat.mod_lt _ (by decide)⟩ :=
  Fin.ext (fieldY_toNat w)

theorem fieldX_eq (w : Word) : fieldX w = BitVec.ofNat 4 (w.toNat / 16 ^ 2) :=
  BitVec.eq_of_toNat_eq (fieldX_toNat w)

theorem fieldY_eq (w : Word) : fieldY w = BitVec.ofNat 4 (w.toNat / 16 ^ 1) :=
  BitVec.eq_of_toNat_eq (fieldY_toNat w)

theorem fieldN_eq (w : Word) : fieldN w = BitVec.ofNat 4 (w.toNat / 16 ^ 0) :=
  BitVec.eq_of_toNat_eq (by rw [fieldN_toNat, pow_zero, Nat.div_one]; rfl)

theorem fieldNN_eq (w : Word) : fieldNN w = BitVec.ofNat 8 w.toNat :=
  BitVec.eq_of_toNat_eq (fieldNN_toNat w)

theorem fieldNNN_eq (w : Word) : fieldNNN w = BitVec.ofNat 12 w.toNat :=
  BitVec.eq_of_toNat_eq (fieldNNN_toNat w)

end Sys2Proof

namespace Sys2Proof.Machine

/-! ## The decoder is the opcode map -/

/-- What the opcode map answers for a word, of the row that was found. -/
def rowAnswer (w : Word) : Option OpcodeRow → Except DecodeError Instr
  | some row => .ok (row.instr w)
  | none => .error (.unrecognized w)

theorem rowAnswer_nil (w : Word) (P : OpcodeRow → Bool) :
    rowAnswer w (List.find? P []) = .error (.unrecognized w) := rfl

theorem rowAnswer_cons (w : Word) (P : OpcodeRow → Prop) [DecidablePred P] (row : OpcodeRow) (rows : List OpcodeRow) :
    rowAnswer w ((row :: rows).find? fun r => decide (P r)) =
      if P row then .ok (row.instr w) else rowAnswer w (rows.find? fun r => decide (P r)) := by
  by_cases h : P row
  · simp [h, rowAnswer]
  · simp [h]

/-- Settles O3: with masks and fields read as numbers, the decoder and the search of the table ask the same questions.
The cases are the primary opcode, and in group 8 the low nibble. -/
theorem decodeFollowsOpcodeMap : Obligations.DecodeFollowsOpcodeMap := by
  intro w
  show decodeWord w = rowAnswer w _
  simp only [opcodeRows, List.cons_append, List.nil_append, rowAnswer_cons, rowAnswer_nil, and_F000_eq_iff,
    and_F0FF_eq_iff, and_F00F_eq_iff, decodeWord, decodeGroup0, decodeGroup8, decodeGroupE, decodeGroupF,
    fieldP_toNat, fieldN_toNat, fieldNN_eq_iff, ← regOf_fieldX_eq, ← regOf_fieldY_eq, ← fieldX_eq, ← fieldY_eq,
    ← fieldN_eq, ← fieldNN_eq, ← fieldNNN_eq]
  have hp : w.toNat / 4096 = 0x0 ∨ w.toNat / 4096 = 0x8 ∨ w.toNat / 4096 = 0xE ∨ w.toNat / 4096 = 0xF ∨
      (0x1 ≤ w.toNat / 4096 ∧ w.toNat / 4096 ≤ 0x7) ∨ (0x9 ≤ w.toNat / 4096 ∧ w.toNat / 4096 ≤ 0xD) := by omega
  generalize w.toNat / 4096 = p at *
  rcases hp with rfl | rfl | rfl | rfl | ⟨hlo, hhi⟩ | ⟨hlo, hhi⟩
  · simp [apply_ite (Except.ok (ε := DecodeError))]
  · have hn : w.toNat % 16 < 16 := Nat.mod_lt _ (by decide)
    generalize w.toNat % 16 = n at *
    interval_cases n <;> rfl
  · simp
  · simp
  · interval_cases p <;> rfl
  · interval_cases p <;> rfl

end Sys2Proof.Machine

namespace Sys2Proof

/-! ## The words that are no instruction (R63) -/

theorem decodeGroup8_unrecognized_iff (w : Word) :
    decodeGroup8 w = .error (.unrecognized w) ↔ w.toNat % 16 ∈ [0x8, 0x9, 0xA, 0xB, 0xC, 0xD, 0xF] := by
  simp only [decodeGroup8, fieldN_toNat]
  have hn : w.toNat % 16 < 16 := Nat.mod_lt _ (by decide)
  generalize w.toNat % 16 = n at *
  interval_cases n <;> simp

theorem decodeGroupE_unrecognized_iff (w : Word) :
    decodeGroupE w = .error (.unrecognized w) ↔ w.toNat % 256 ∉ [0x9E, 0xA1] := by
  simp only [decodeGroupE, fieldNN_eq_iff]
  simp [ite_eq_iff]

theorem decodeGroupF_unrecognized_iff (w : Word) :
    decodeGroupF w = .error (.unrecognized w) ↔
      w.toNat % 256 ∉ [0x07, 0x0A, 0x15, 0x18, 0x1E, 0x29, 0x33, 0x55, 0x65] := by
  simp only [decodeGroupF, fieldNN_eq_iff]
  simp [ite_eq_iff]

theorem decodeGroup0_sys_iff (w : Word) :
    (∃ nnn, decodeGroup0 w = .sysAddr nnn) ↔ w.toNat % 256 ∉ [0xE0, 0xEE] := by
  simp only [decodeGroup0, fieldNN_eq_iff]
  simp [ite_eq_iff]

/-- A word that decodes to `SYS` is the word of a `SYS`, so that its group is 0. -/
theorem decodeWord_sys_iff (w : Word) :
    (∃ nnn, decodeWord w = .ok (.sysAddr nnn)) ↔ w.toNat / 4096 = 0 ∧ w.toNat % 256 ∉ [0xE0, 0xEE] := by
  have hP (h : fieldP w = 0x0) : (∃ nnn, decodeWord w = .ok (.sysAddr nnn)) ↔ w.toNat % 256 ∉ [0xE0, 0xEE] := by
    simp only [decodeWord_group0 h, Except.ok.injEq, decodeGroup0_sys_iff]
  have hp : fieldP w = 0x0 ↔ w.toNat / 4096 = 0 := by
    rw [← BitVec.toNat_inj, fieldP_toNat]
    rfl
  constructor
  · rintro ⟨nnn, h⟩
    obtain ⟨hw, -⟩ := encode_decodeWord h
    have h0 : fieldP w = 0x0 := hw ▸ fieldP_wordA 0x0 nnn
    exact ⟨hp.mp h0, (hP h0).mp ⟨nnn, h⟩⟩
  · rintro ⟨h0, hn⟩
    exact (hP (hp.mpr h0)).mpr hn

theorem decodeWord_unrecognized_iff (w : Word) :
    decodeWord w = .error (.unrecognized w) ↔
      (w.toNat / 4096 = 8 ∧ decodeGroup8 w = .error (.unrecognized w)) ∨
      (w.toNat / 4096 = 0xE ∧ decodeGroupE w = .error (.unrecognized w)) ∨
      (w.toNat / 4096 = 0xF ∧ decodeGroupF w = .error (.unrecognized w)) := by
  have hp : w.toNat / 4096 < 16 := by omega
  simp only [decodeWord, fieldP_toNat]
  generalize w.toNat / 4096 = p at *
  interval_cases p <;> simp

/-- Settles O4: the words by their group and its secondary field; `SYS` by the word it encodes to. -/
theorem unrecognizedWordsExactly : Obligations.UnrecognizedWordsExactly := by
  unfold Obligations.UnrecognizedWordsExactly
  intro w
  rw [decodeWord_unrecognized_iff, decodeGroup8_unrecognized_iff, decodeGroupE_unrecognized_iff,
    decodeGroupF_unrecognized_iff]
  exact ⟨Iff.rfl, decodeWord_sys_iff w⟩

end Sys2Proof
end

section
/-! PROOFS of 60_exceptions.md: which instruction faults when (R141, R142), what a halted core keeps (R143), and the
invariant of the block, which every transaction keeps. -/

namespace Sys2Proof.Machine

variable {s t u : State} {i : Instr} {r : Byte} {c : FaultCode} {n : Nat}

/-! ## The fault table (R141) -/

theorem dataRangeOf_eq_none_iff {count : Nat} : dataRangeOf s count = none ↔ s.badDataAddr count = none := by
  rw [State.badDataAddr_eq, dataRangeOf]
  split <;> simp

theorem dataRangeOf_eq_some_iff {count : Nat} :
    dataRangeOf s count = some (c, n) ↔ c = .dataRange ∧ s.badDataAddr count = some n := by
  rw [State.badDataAddr_eq, dataRangeOf]
  split <;> simp [eq_comm]

theorem zextByte_eq_ofNat (b : Byte) : zextByte b = BitVec.ofNat 16 b.toNat := by
  simp [zextByte]

/-- Where the table gives a fault, the instruction raises it with its word and its offending value. -/
theorem exec_of_faultOf_some (h : faultOf i s = some (c, n)) :
    exec i s = .next (s.raise c (encode i) (BitVec.ofNat 16 n)) := by
  cases i with
  | drwVxVyNibble x y k =>
    obtain ⟨rfl, hb⟩ := dataRangeOf_eq_some_iff.mp h
    exact exec_drw_out s x y k hb
  | ldBVx x =>
    obtain ⟨rfl, hb⟩ := dataRangeOf_eq_some_iff.mp h
    exact exec_ldBVx_out s x hb
  | ldMemIVx x =>
    obtain ⟨rfl, hb⟩ := dataRangeOf_eq_some_iff.mp h
    exact exec_ldMemIVx_out s x hb
  | ldVxMemI x =>
    obtain ⟨rfl, hb⟩ := dataRangeOf_eq_some_iff.mp h
    exact exec_ldVxMemI_out s x hb
  | callAddr a =>
    obtain ⟨hsp, he⟩ := Option.ite_none_right_eq_some.mp h
    cases he
    exact exec_call_full s a hsp
  | ret g =>
    obtain ⟨hsp, he⟩ := Option.ite_none_right_eq_some.mp h
    cases he
    exact exec_ret_empty s g hsp
  | skpVx x =>
    obtain ⟨hv, he⟩ := Option.ite_none_right_eq_some.mp h
    cases he
    exact zextByte_eq_ofNat (s.getV x) ▸ exec_skp_out s x hv
  | sknpVx x =>
    obtain ⟨hv, he⟩ := Option.ite_none_right_eq_some.mp h
    cases he
    exact zextByte_eq_ofNat (s.getV x) ▸ exec_sknp_out s x hv
  | _ => cases h

@[simp] theorem State.loadRegs_mem (bs : List Byte) : (s.loadRegs bs).mem = s.mem := State.setRegs_mem s _

@[simp] theorem State.loadRegs_fault (bs : List Byte) : (s.loadRegs bs).fault = s.fault := State.setRegs_fault s _

/-- Where the table gives no fault, the instruction leaves the latch alone, and memory too unless it stores bytes in
range. -/
theorem exec_of_faultOf_none (h : faultOf i s = none) : ∃ t, exec i s = .next t ∧ t.fault = s.fault ∧
    (t.mem = s.mem ∨ ∃ bs, s.badDataAddr bs.length = none ∧ t.mem = (s.storeBytes bs).mem) := by
  cases i with
  | drwVxVyNibble x y k =>
    have he := exec_drw_in s x y k (dataRangeOf_eq_none_iff.mp h)
    exact ⟨_, he, rfl, .inl rfl⟩
  | ldVxMemI x =>
    exact ⟨_, exec_ldVxMemI_in s x (dataRangeOf_eq_none_iff.mp h), by simp, .inl (by simp)⟩
  | ldBVx x =>
    have hb := dataRangeOf_eq_none_iff.mp h
    exact ⟨_, exec_ldBVx_in s x hb, rfl, .inr ⟨decimalDigits (s.getV x), hb, rfl⟩⟩
  | ldMemIVx x =>
    have hb := dataRangeOf_eq_none_iff.mp h
    exact ⟨_, exec_ldMemIVx_in s x hb, rfl, .inr ⟨_, (s.length_lowRegs x).symm ▸ hb, rfl⟩⟩
  | callAddr a =>
    have hsp : ¬s.sp.val = 16 := by simpa [faultOf] using h
    exact ⟨_, exec_call_push s a (by omega), rfl, .inl rfl⟩
  | ret g =>
    have hsp : ¬s.sp.val = 0 := by simpa [faultOf] using h
    exact ⟨_, exec_ret_pop s g (by omega), rfl, .inl rfl⟩
  | skpVx x =>
    have hv : (s.getV x).toNat ≤ 15 := by simpa [faultOf] using h
    exact ⟨_, exec_skp_in s x hv, State.skipIf_fault s _, .inl (State.skipIf_mem s _)⟩
  | sknpVx x =>
    have hv : (s.getV x).toNat ≤ 15 := by simpa [faultOf] using h
    exact ⟨_, exec_sknp_in s x hv, State.skipIf_fault s _, .inl (State.skipIf_mem s _)⟩
  | ldVxK x =>
    by_cases hk : s.keys = 0
    · exact ⟨_, exec_ldVxK_wait s x hk, rfl, .inl rfl⟩
    · exact ⟨_, exec_ldVxK_take s x hk, rfl, .inl rfl⟩
  | seVxByte | sneVxByte | seVxVy | sneVxVy =>
    exact ⟨_, rfl, State.skipIf_fault s _, .inl (State.skipIf_mem s _)⟩
  | _ => exact ⟨_, rfl, rfl, .inl rfl⟩

/-- Settles O12, by the two cases of the fault table. -/
theorem faultsAreExactAndPrecise : Obligations.FaultsAreExactAndPrecise := by
  unfold Obligations.FaultsAreExactAndPrecise
  intro i s
  split
  next h => exact exec_of_faultOf_some h
  next h =>
    obtain ⟨t, he, hf, -⟩ := exec_of_faultOf_none h
    exact ⟨t, he, hf⟩

/-- Settles O10: a step is one transaction, and each ends in a next state. -/
theorem stepAlwaysEndsInANextState : Obligations.StepAlwaysEndsInANextState := by
  unfold Obligations.StepAlwaysEndsInANextState
  intro s
  obtain ⟨t, p, h⟩ := step_is_transaction s
  rw [h]
  exact runTransaction_next _ t

/-! ## The invariant -/

/-- The invariant does not speak of the timers, the keypad, the frame buffer, `redraw` and the environment's side. -/
theorem State.Inv.congr (h : s.Inv) (hmem : t.mem.wf) (hv : t.v = s.v) (hi : t.i = s.i) (hpc : t.pc = s.pc)
    (hstack : t.stack = s.stack) (hsp : t.sp = s.sp) (hf : t.fault = s.fault) : t.Inv := by
  refine ⟨hmem, fun hr => ?_, fun hh => ?_, fun j => ?_, ?_⟩
  · rw [hf]
    exact h.latchClear (State.running_congr hf.symm hr)
  · have hs : s.halted := by rwa [State.halted, ← hf]
    simpa only [State.latchDescribes, hf, hpc, faultOf_congr s hi hv hsp] using h.latchSet hs
  · rw [hstack]
    exact h.slots j
  · rw [hpc]
    exact h.pc

theorem State.Inv.setPort (h : s.Inv) (p : Port) : (s.setPort p).Inv := h.congr h.mem rfl rfl rfl rfl rfl rfl

/-- Settles O17, part by part. -/
theorem invariantAtReset : Obligations.InvariantAtReset where
  mem := State.reset_mem_wf
  latchClear _ := rfl
  latchSet := nofun
  slots j := by simp [State.reset, Vector.get_eq_getElem]
  pc := by decide

/-- A fault of a running core, in a state that meets the invariant: the latch it sets describes the state. -/
theorem State.Inv.raise (h : s.Inv) {ir info : Word} (hd : (s.raise c ir info).latchDescribes) :
    (s.raise c ir info).Inv :=
  ⟨h.mem, nofun, fun _ => hd, h.slots, h.pc⟩

/-! ### What an executed instruction does to the parts of the invariant -/

/-- Bytes stored where the range check finds no fault keep the canonical form (20_memory.md R47). -/
theorem State.storeBytes_mem_wf (h : s.mem.wf) (bs : List Byte) (hb : s.badDataAddr bs.length = none) :
    (s.storeBytes bs).mem.wf := by
  cases bs with
  | nil => exact h
  | cons b bs =>
    have hlast : s.dataAddr bs.length < 4096 := (s.badDataAddr_eq_none _).mp hb _ (by simp)
    exact Memory.wf_writeBytes (b :: bs) h hlast

/-- Every stack slot is as before, or holds the address of the next instruction (10_state.md R18). -/
theorem exec_slots (he : exec i s = .next t) (j : Fin 16) :
    t.stack.get j = s.stack.get j ∨ t.stack.get j = s.pc + 2 := by
  cases i with
  | callAddr a =>
    rcases Nat.lt_or_ge s.sp.val 16 with h | h
    · cases he.symm.trans (exec_call_push s a h)
      by_cases hj : s.sp.val = j.val
      · exact .inr (by simp [Vector.get_eq_getElem, hj])
      · exact .inl (by simp [Vector.get_eq_getElem, hj])
    · cases he.symm.trans (exec_call_full s a (by omega))
      exact .inl rfl
  | _ =>
    rcases exec_frame_of_eq s he with ⟨c, ir, info, rfl⟩ | hf
    · exact .inl rfl
    · exact .inl (hf.slots j (List.not_mem_nil))

theorem State.getD_stack (s : State) {k : Nat} (h : k < 16) : s.stack.toList.getD k 0 = s.stack.get ⟨k, h⟩ := by
  simp [Vector.get_eq_getElem, h]

/-- Every value the table gives `pc` (10_state.md R16) is at most 0x0FFF + 0xFF, that of `JP V0, addr`. -/
theorem pcAfter_le (h : s.Inv) (hpc : s.pc.toNat ≤ 0x0FFE) (i : Instr) : (pcAfter i s).toNat ≤ 0x10FE := by
  have two : (s.pc + 2).toNat ≤ 0x10FE := by bv_omega
  have skip (p : Prop) [Decidable p] : (if p then s.pc + 4 else s.pc + 2).toNat ≤ 0x10FE := by
    split
    · bv_omega
    · exact two
  cases i with
  | jpAddr a | callAddr a =>
    show (BitVec.ofNat 16 a.toNat).toNat ≤ _
    rw [BitVec.toNat_ofNat]
    omega
  | jpV0Addr a =>
    show (BitVec.ofNat 16 (a.toNat + (s.getV 0).toNat)).toNat ≤ _
    rw [BitVec.toNat_ofNat]
    omega
  | ret g =>
    have hsp : s.sp.val - 1 < 16 := by omega
    show (s.stack.toList.getD (s.sp.val - 1) 0).toNat ≤ _
    rw [s.getD_stack hsp]
    exact (h.slots _).trans (by decide)
  | seVxByte | sneVxByte | seVxVy | sneVxVy | skpVx | sknpVx => exact skip _
  | ldVxK =>
    show (if s.keys = 0 then s.pc else s.pc + 2).toNat ≤ _
    split
    · exact h.pc
    · exact two
  | _ => exact two

theorem State.pc_le_of_fetch {w : Word} (h : s.fetch = some w) : s.pc.toNat ≤ 0x0FFE :=
  Nat.le_of_not_lt fun hlt => nomatch h.symm.trans ((s.fetch_eq_none).mpr hlt)

/-- An executed instruction keeps the invariant: where it faults its word decodes to it, and where it does not the core
runs on. -/
theorem exec_inv (h : s.Inv) (hr : s.running) (hpc : s.pc.toNat ≤ 0x0FFE) {ir : Word} (hd : decodeWord ir = .ok i)
    (he : exec i s = .next t) : t.Inv := by
  cases hf : faultOf i s with
  | some p =>
    obtain ⟨c, n⟩ := p
    cases he.symm.trans (exec_of_faultOf_some hf)
    obtain ⟨hw, -⟩ := encode_decodeWord hd
    exact h.raise ⟨rfl, .inr ⟨hpc, i, c, n, hw ▸ hd, hf, rfl, rfl⟩⟩
  | none =>
    obtain ⟨t', he', hfault, hmem⟩ := exec_of_faultOf_none hf
    cases he.symm.trans he'
    have hwf : t.mem.wf := by
      rcases hmem with hm | ⟨bs, hb, hm⟩
      · exact hm ▸ h.mem
      · exact hm ▸ State.storeBytes_mem_wf h.mem bs hb
    have htr : t.running := State.running_congr hfault hr
    refine ⟨hwf, fun _ => hfault.trans (h.latchClear hr),
      fun hh => absurd hh (State.not_halted_of_running htr), fun j => ?_, ?_⟩
    · rcases exec_slots he j with hj | hj
      · rw [hj]
        exact h.slots j
      · rw [hj]
        bv_omega
    · rw [exec_pc he htr]
      exact pcAfter_le h hpc i

theorem State.load_mem_wf (h : s.mem.wf) (bytes : Option (List Byte)) : (s.load bytes).mem.wf := by
  cases bytes with
  | none => exact h
  | some bs =>
    simp only [State.load]
    split
    · exact h
    next hlen =>
      have hlast : 0x200 + bs.length ≤ 0x200 + 3584 := Nat.add_le_add_left (Nat.le_of_not_lt hlen) _
      exact Memory.wf_writeBytes bs h hlast

/-- Every transaction keeps the invariant; a `STEP` by its four cases. -/
theorem runTransaction_inv (h : s.Inv) {tr : Transaction} (hu : runTransaction tr s = .next u) : u.Inv := by
  cases tr with
  | reset =>
    cases hu
    exact invariantAtReset.setPort _
  | load bytes =>
    have hwf := State.load_mem_wf h.mem bytes
    obtain ⟨m, res, hl, -⟩ := s.load_inversion bytes
    cases hu
    rw [hl] at hwf ⊢
    exact h.congr hwf rfl rfl rfl rfl rfl rfl
  | tick | keys | present =>
    cases hu
    exact h.congr h.mem rfl rfl rfl rfl rfl rfl
  | step r =>
    have hb : (s.begin r).Inv := h.setPort _
    rcases step_cases s with hh | ⟨hr, hf⟩ | ⟨ir, e, hr, hf, hd⟩ | ⟨i, hi⟩
    · cases (run_step_halted s r hh).symm.trans hu
      exact h.setPort _
    · cases (run_step_out s r hr hf).symm.trans hu
      exact hb.raise ⟨rfl, .inl ⟨(State.fetch_eq_none s).mp hf, rfl, rfl, rfl⟩⟩
    · cases (run_step_unrecognized s r hr hf hd).symm.trans hu
      have hpc := State.pc_le_of_fetch hf
      have hnext : (s.pc + 2).toNat ≤ 0x10FE := by bv_omega
      exact ⟨h.mem, h.latchClear, fun hh => absurd hh (State.not_halted_of_running hr), h.slots, hnext⟩
    · obtain ⟨hr, ir, hf, hd⟩ := hi
      exact exec_inv (ir := ir) hb hr (State.pc_le_of_fetch hf) hd ((run_step_exec s r ⟨hr, ir, hf, hd⟩).symm.trans hu)

/-- Settles O18: a step is one transaction. -/
theorem invariantKeptByEveryStep : Obligations.InvariantKeptByEveryStep := by
  unfold Obligations.InvariantKeptByEveryStep
  intro s t h hst
  obtain ⟨tr, p, he⟩ := step_is_transaction s
  exact runTransaction_inv (h.setPort p) (he.symm.trans hst)

end Sys2Proof.Machine
end

section
/-! PROOFS of 00_scope.md and 60_exceptions.md: in which order the transactions happen, and what each does to the block,
running and halted. -/

namespace Sys2Proof.Machine

variable {s t u : State} {i : Instr} {r : Byte}

/-! ## The schedule (log entries 1, 2) -/

/-- Settles O9, by the two cases of the schedule. -/
theorem pendingTransactionsTakeTurns : Obligations.PendingTransactionsTakeTurns := by
  unfold Obligations.PendingTransactionsTakeTurns
  intro s
  exact ⟨fun _ _ => step_listed s, step_unlisted s⟩

/-! ## `STEP` of a running core (10_state.md R25) -/

/-- A byte list of two bytes decodes as the word they join to. -/
theorem decodeWord_of_decodeBytes {hi lo : Byte} (h : decodeBytes [hi, lo] = .ok (i, [])) :
    decodeWord (wordOfBytes hi lo) = .ok i := by
  simp only [decodeBytes] at h
  split at h
  next hd =>
    cases h
    exact hd
  next => cases h

/-- Settles O6: both shapes of a `STEP` run the instruction by `run_step_exec`, in the state the schedule leaves. -/
theorem stepRunsDecodedInstruction : Obligations.StepRunsDecodedInstruction := by
  unfold Obligations.StepRunsDecodedInstruction
  intro s i hr hpc hd
  have runs (p : Port) : (s.setPort p).runs i :=
    ⟨hr, _, State.fetch_eq_some _ hpc, decodeWord_of_decodeBytes hd⟩
  refine ⟨fun hp => ?_, fun r rest hp => ?_⟩
  · rw [step_unlisted s hp, run_step_exec _ _ (runs _)]
    simp only [State.begin, State.setPort_port, hp]
    rfl
  · rw [step_listed s hp, run_step_exec _ _ (runs _)]
    rfl

/-- Settles O7: a word of no row by the report of the step, a `SYS` word by that of its own meaning. -/
theorem unrecognizedWordIsReported : Obligations.UnrecognizedWordIsReported := by
  unfold Obligations.UnrecognizedWordIsReported
  intro s r w hr hf hd
  rcases hd with hd | ⟨nnn, hd⟩
  · exact ⟨_, run_step_unrecognized s r hr hf hd, rfl, rfl, rfl⟩
  · obtain ⟨hw, -⟩ := encode_decodeWord hd
    exact ⟨_, run_step_exec s r ⟨hr, w, hf, hd⟩, rfl, rfl, by rw [← hw]; rfl⟩

/-- Settles O8, by the two cases of the fetch. -/
theorem fetchIsBigEndianOrFaults : Obligations.FetchIsBigEndianOrFaults := by
  unfold Obligations.FetchIsBigEndianOrFaults
  intro s r hr
  refine ⟨fun hpc => ?_, fun hpc => ?_⟩
  · exact ⟨_, run_step_out s r hr (s.fetch_eq_none.mpr hpc), rfl, rfl⟩
  · exact ⟨_, s.fetch_eq_some hpc, wordOfBytes_toNat _ _⟩

/-! ## The halted core (60_exceptions.md R143, R152) -/

theorem State.load_setFault (s : State) (f : FaultLatch) (bytes : Option (List Byte)) :
    (s.setFault f).load bytes = (s.load bytes).setFault f := by
  cases bytes with
  | none => rfl
  | some bs =>
    simp only [State.load]
    split <;> rfl

theorem State.load_fault (s : State) (bytes : Option (List Byte)) : (s.load bytes).fault = s.fault := by
  obtain ⟨m, res, hl, -⟩ := s.load_inversion bytes
  rw [hl]
  rfl

/-- Only `STEP` looks at the fault latch, and only `STEP` and `RESET` write it. -/
theorem runTransaction_setFault {tr : Transaction} (f : FaultLatch) (hreset : tr ≠ .reset) (hstep : ∀ r, tr ≠ .step r) :
    ∃ u, runTransaction tr s = .next u ∧ u.fault = s.fault ∧
      runTransaction tr (s.setFault f) = .next (u.setFault f) := by
  cases tr with
  | reset => exact absurd rfl hreset
  | step r => exact absurd rfl (hstep r)
  | load bytes => exact ⟨_, rfl, s.load_fault bytes, congrArg _ (s.load_setFault f bytes)⟩
  | tick | keys | present => exact ⟨_, rfl, rfl, rfl⟩

/-- Settles O13: a `STEP` by `run_step_halted`, the others by `runTransaction_setFault`. -/
theorem haltedCoreIgnoresStep : Obligations.HaltedCoreIgnoresStep := by
  unfold Obligations.HaltedCoreIgnoresStep
  intro s hh
  exact ⟨fun r => ⟨_, run_step_halted s r hh, rfl, rfl⟩, fun tr f => runTransaction_setFault f⟩

/-- What a halt keeps: the latch, `pc`, `I`, the registers, the call stack and the frame buffer. -/
structure HaltKeeps (s u : State) : Prop where
  fault : u.fault = s.fault
  pc : u.pc = s.pc
  i : u.i = s.i
  v : u.v = s.v
  stack : u.stack = s.stack
  sp : u.sp = s.sp
  fb : u.fb = s.fb

theorem HaltKeeps.refl (s : State) : HaltKeeps s s := ⟨rfl, rfl, rfl, rfl, rfl, rfl, rfl⟩

theorem HaltKeeps.trans (h : HaltKeeps s t) (h' : HaltKeeps t u) : HaltKeeps s u :=
  ⟨h'.fault.trans h.fault, h'.pc.trans h.pc, h'.i.trans h.i, h'.v.trans h.v, h'.stack.trans h.stack, h'.sp.trans h.sp,
    h'.fb.trans h.fb⟩

theorem HaltKeeps.halted (h : HaltKeeps s u) (hh : s.halted) : u.halted := by
  rwa [State.halted, h.fault]

/-- In a halted state every transaction but `RESET` keeps what a halt keeps, and the schedule. -/
theorem runTransaction_halted (hh : s.halted) {tr : Transaction} (ht : tr ≠ .reset) :
    ∃ u, runTransaction tr s = .next u ∧ HaltKeeps s u ∧ u.port.pending = s.port.pending := by
  cases tr with
  | reset => exact absurd rfl ht
  | step r => exact ⟨_, run_step_halted s r hh, ⟨rfl, rfl, rfl, rfl, rfl, rfl, rfl⟩, rfl⟩
  | load bytes =>
    obtain ⟨m, res, hl, -⟩ := s.load_inversion bytes
    exact ⟨_, congrArg Host.Outcome.next hl, ⟨rfl, rfl, rfl, rfl, rfl, rfl, rfl⟩, rfl⟩
  | tick | keys | present => exact ⟨_, rfl, ⟨rfl, rfl, rfl, rfl, rfl, rfl, rfl⟩, rfl⟩

/-- The same of a step, which takes its transaction from the schedule. -/
theorem step_halted (hh : s.halted) (ht : ∀ t ∈ s.port.pending.head?, t ≠ .reset) :
    ∃ u, step s = .next u ∧ HaltKeeps s u ∧ u.port.pending = s.port.pending.tail := by
  have port (p : Port) : HaltKeeps s (s.setPort p) := ⟨rfl, rfl, rfl, rfl, rfl, rfl, rfl⟩
  cases hp : s.port.pending with
  | nil =>
    obtain ⟨u, hu, hk, hpend⟩ := runTransaction_halted (s := s.setPort { s.port with draws := s.port.draws + 1 }) hh
      (tr := .step (Config.rndByte s.port.draws)) nofun
    exact ⟨u, (step_unlisted s hp).trans hu, (port _).trans hk, hpend.trans hp⟩
  | cons tr rest =>
    obtain ⟨u, hu, hk, hpend⟩ := runTransaction_halted (s := s.setPort { s.port with pending := rest }) hh
      (ht tr (by simp [hp]))
    exact ⟨u, (step_listed s hp).trans hu, (port _).trans hk, hpend⟩

/-- The same of any number of steps with no `RESET` among their transactions (60_exceptions.md R152). -/
theorem run_halted (n : Nat) (hh : s.halted) (ht : ∀ t ∈ s.port.pending.take n, t ≠ .reset) :
    ∃ u : State, Host.Core.run Sys2Proof.core n s = .next u ∧ HaltKeeps s u := by
  induction n generalizing s with
  | zero => exact ⟨s, rfl, HaltKeeps.refl s⟩
  | succ n ih =>
    have hhead : ∀ t ∈ s.port.pending.head?, t ≠ .reset := fun t h => ht t (by cases hp : s.port.pending <;> simp_all)
    obtain ⟨t, hst, hk, hpend⟩ := step_halted hh hhead
    have htail : ∀ tr ∈ t.port.pending.take n, tr ≠ .reset := fun tr h => ht tr (by
      rw [hpend] at h
      cases hp : s.port.pending <;> simp_all)
    obtain ⟨u, hu, hk'⟩ := ih (hk.halted hh) htail
    exact ⟨u, (core_run_succ n hst).trans hu, hk.trans hk'⟩

/-- Settles O14, by induction on the number of steps. -/
theorem haltedUntilReset : Obligations.HaltedUntilReset := by
  unfold Obligations.HaltedUntilReset
  intro n s hh ht
  obtain ⟨u, hu, hk⟩ := run_halted n hh ht
  exact ⟨u, hu, hk.fault, hk.pc, hk.i, hk.v, hk.stack, hk.sp, hk.fb⟩

/-! ## `RESET`, `LOAD` and the ports -/

/-- Settles O15, field by field. -/
theorem resetStateHoldsTheseValues : Obligations.ResetStateHoldsTheseValues := by
  unfold Obligations.ResetStateHoldsTheseValues
  have hv (r : Reg) : State.reset.getV r = 0 := by simp [State.getV, State.reset, Vector.get_eq_getElem]
  have hstack (j : Fin 16) : State.reset.stack.get j = 0 := by simp [State.reset, Vector.get_eq_getElem]
  exact ⟨fun a => rfl, rfl, hv, rfl, rfl, hstack, rfl, rfl, rfl, rfl, FrameBuffer.pixel_clear, rfl, rfl⟩

/-- Settles O16: `RESET` takes nothing from the block, and from `port` what it leaves there. -/
theorem resetForgetsEverything : Obligations.ResetForgetsEverything := by
  unfold Obligations.ResetForgetsEverything
  intro s
  exact ⟨_, rfl, rfl, rfl, rfl, _, rfl, rfl⟩

/-- Settles O20: the bytes of a `LOAD` that fits by `Memory.read_writeBytes`. -/
theorem loadCopiesTheProgram : Obligations.LoadCopiesTheProgram := by
  unfold Obligations.LoadCopiesTheProgram
  intro s
  refine ⟨fun bs hl => ?_, fun bs hl => ?_, ⟨_, rfl, rfl, rfl⟩⟩
  · exact ⟨_, run_load_ok s bs hl, rfl, rfl, Memory.read_writeBytes bs s.mem 0x200⟩
  · exact ⟨_, run_load_tooLarge s bs hl, rfl, rfl⟩

/-- Settles O22: each port writes one field and the result. -/
theorem keysAndPresentPorts : Obligations.KeysAndPresentPorts := by
  unfold Obligations.KeysAndPresentPorts
  intro s
  exact ⟨fun k => ⟨_, rfl, fun _ _ => rfl, rfl⟩, _, rfl, rfl, rfl⟩

/-! ## The end of a run (70_reset_and_hazards.md R183) -/

/-- The word of a `JP` to an address inside memory, and the address it jumps to (40_control_flow.md R78). -/
theorem encode_jpAddr_of_pc {pc : Word} (h : pc.toNat ≤ 0x0FFE) :
    encode (.jpAddr (pc.setWidth 12)) = 0x1000 + pc ∧ zextAddr (pc.setWidth 12) = pc := by
  have hlow : (pc.setWidth 12).toNat = pc.toNat := by
    rw [BitVec.toNat_setWidth]
    omega
  refine ⟨BitVec.eq_of_toNat_eq ?_, BitVec.eq_of_toNat_eq ((zextAddr_toNat _).trans hlow)⟩
  rw [encode, wordA_toNat, hlow]
  bv_omega

/-- A `STEP` of a self-jump executes it, and it writes to `pc` what `pc` holds. -/
theorem run_step_selfJump (r : Byte) (h : s.selfJump) : runTransaction (.step r) s = .next (s.begin r) := by
  obtain ⟨hr, hpc, hw⟩ := h
  obtain ⟨he, hz⟩ := encode_jpAddr_of_pc hpc
  have hd := decodeWord_encode (.jpAddr (s.pc.setWidth 12)) rfl
  rw [he, ← hw] at hd
  rw [run_step_exec s r ⟨hr, _, s.fetch_eq_some hpc, hd⟩]
  exact congrArg (fun pc => Host.Outcome.next ((s.begin r).setPc pc)) hz

/-- Settles O23: the state after the step is the one it begins from. -/
theorem selfJumpIsStable : Obligations.SelfJumpIsStable := by
  unfold Obligations.SelfJumpIsStable
  intro s r h
  exact ⟨_, run_step_selfJump r h, rfl, h⟩

end Sys2Proof.Machine
end

section
/-! PROOFS of 40_control_flow.md: `SYS`, calls and returns, jumps and skips (R75 to R84), and the skips on a key
(47_input.md R132, R133). -/

namespace Sys2Proof.Machine

variable {s t u : State} {i : Instr}

/-! ## Frames of the writes of `pc` and of the call stack -/

theorem Frame.ofSetPc (s : State) (w : Word) : Frame { pc := true } s (s.setPc w) := by
  constructor
  case pc => nofun
  all_goals intros; rfl

theorem Frame.ofReport (s : State) (ir : Word) : Frame { pc := true, result := true } s (s.report ir) := by
  constructor
  case pc | result => nofun
  all_goals intros; rfl

theorem Frame.ofPop (s : State) (n : Fin 17) (w : Word) :
    Frame { pc := true, sp := true } s ((s.setSp n).setPc w) := by
  constructor
  case pc | sp => nofun
  all_goals intros; rfl

theorem Frame.ofPush (s : State) (w a : Word) (j : Fin 16) (n : Fin 17) :
    Frame { slots := [j], pc := true, sp := true } s (((s.setStack (s.stack.set j.val w j.isLt)).setSp n).setPc a) := by
  constructor
  case pc | sp => nofun
  case slots =>
    intro k hk
    have hne : j.val ≠ k.val := fun h => hk (by simp [Fin.ext h])
    simp [Vector.get_eq_getElem, hne]
  all_goals intros; rfl

/-! ## `SYS`, `RET`, `CALL` -/

/-- Settles O24: the reported word is that of the instruction, of format A with opcode 0. -/
theorem sysIsReportedAndSkipped : Obligations.SysIsReportedAndSkipped := by
  unfold Obligations.SysIsReportedAndSkipped
  intro nnn s
  have hw : encode (.sysAddr nnn) = BitVec.ofNat 16 nnn.toNat := by simpa [encode] using wordA_eq_ofNat 0x0 nnn
  exact ⟨_, rfl, rfl, by rw [← hw]; rfl, Frame.ofReport s _⟩

/-- Settles O25, by the case of `RET` with a return address held. -/
theorem retPopsTheNewestAddress : Obligations.RetPopsTheNewestAddress := by
  unfold Obligations.RetPopsTheNewestAddress
  intro g s h
  have hslot : s.sp.val - 1 < 16 := by omega
  exact ⟨_, exec_ret_pop s g h, rfl, (s.getD_stack hslot).symm, Frame.ofPop s _ _⟩

/-- Settles O26, by the case of `CALL` with a free slot. -/
theorem callPushesTheNextAddress : Obligations.CallPushesTheNextAddress := by
  unfold Obligations.CallPushesTheNextAddress
  intro nnn s h
  refine ⟨_, exec_call_push s nnn h, ?_, rfl, zextAddr_toNat nnn, Frame.ofPush s _ _ ⟨s.sp.val, h⟩ _⟩
  simp [Vector.get_eq_getElem]

/-! ## A call and its return -/

/-- An instruction other than `CALL` and `RET` keeps the stack pointer and every slot. -/
theorem exec_keeps_stack (hi : ¬touchesStack i) (h : exec i s = .next t) :
    t.sp = s.sp ∧ ∀ j, t.stack.get j = s.stack.get j := by
  rcases exec_frame_of_eq s h with ⟨c, ir, info, rfl⟩ | hf
  · exact ⟨rfl, fun _ => rfl⟩
  · cases i with
    | callAddr | ret => exact absurd trivial hi
    | _ => exact ⟨hf.sp rfl, fun j => hf.slots j List.not_mem_nil⟩

theorem executes_keeps_stack {is : List Instr} (h : Executes is t u) (hi : ∀ i ∈ is, ¬touchesStack i) :
    u.sp = t.sp ∧ ∀ j, u.stack.get j = t.stack.get j := by
  induction h with
  | done s => exact ⟨rfl, fun _ => rfl⟩
  | more he _ ih =>
    obtain ⟨hsp, hslots⟩ := exec_keeps_stack (hi _ List.mem_cons_self) he
    obtain ⟨hsp', hslots'⟩ := ih fun i hm => hi i (List.mem_cons_of_mem _ hm)
    exact ⟨hsp'.trans hsp, fun j => (hslots' j).trans (hslots j)⟩

/-- Settles O27: what `CALL` pushed is still the newest slot when `RET` pops. -/
theorem callThenReturnComesBack : Obligations.CallThenReturnComesBack := by
  unfold Obligations.CallThenReturnComesBack
  intro nnn g is s t u hlt hcall hi hrun
  obtain ⟨t', hcall', hslot, hsp, -⟩ := callPushesTheNextAddress nnn s hlt
  cases hcall.symm.trans hcall'
  obtain ⟨husp, huslots⟩ := executes_keeps_stack hrun hi
  have hu : u.sp.val = s.sp.val + 1 := (congrArg Fin.val husp).trans hsp
  refine ⟨_, exec_ret_pop u g (by omega), ?_, Fin.ext ?_⟩
  · have hj : (⟨u.sp.val - 1, by omega⟩ : Fin 16) = ⟨s.sp.val, hlt⟩ := Fin.ext (by simp [hu])
    show u.stack.get _ = _
    rw [hj, huslots, hslot]
  · show u.sp.val - 1 = _
    omega

/-! ## Jumps -/

theorem zextAddr_add_zextByte_toNat (a : Addr) (b : Byte) : (zextAddr a + zextByte b).toNat = a.toNat + b.toNat := by
  rw [zextAddr_add_zextByte, BitVec.toNat_ofNat]
  omega

/-- Settles O28: 12 bits, and 12 bits plus 8, fit into a word. -/
theorem jumpsReachTheirTargets : Obligations.JumpsReachTheirTargets := by
  unfold Obligations.JumpsReachTheirTargets
  intro nnn s
  exact ⟨⟨_, rfl, zextAddr_toNat nnn, Frame.ofSetPc s _⟩,
    ⟨_, rfl, zextAddr_add_zextByte_toNat nnn (s.getV V0), Frame.ofSetPc s _⟩⟩

/-! ## Skips -/

/-- A skip on a condition: `pc` by 4 where it holds, by 2 where it does not, and nothing else (10_state.md R16). -/
theorem State.skipIf_spec (s : State) {b : Bool} {P : Prop} (hP : b = true ↔ P) :
    Frame { pc := true } s (s.skipIf b) ∧ (P → (s.skipIf b).pc = s.pc + 4) ∧ (¬P → (s.skipIf b).pc = s.pc + 2) := by
  refine ⟨Frame.ofSkipIf s b, fun h => ?_, fun h => ?_⟩
  · rw [State.skipIf_pc, if_pos (hP.mpr h)]
  · rw [State.skipIf_pc, if_neg (mt hP.mp h)]

/-- Settles O29, by `State.skipIf_spec`. -/
theorem skipsOnAnImmediate : Obligations.SkipsOnAnImmediate := by
  unfold Obligations.SkipsOnAnImmediate
  intro x nn s
  obtain ⟨hf, h4, h2⟩ := s.skipIf_spec (bne_iff_ne (a := s.getV x) (b := nn))
  exact ⟨⟨_, rfl, s.skipIf_spec beq_iff_eq⟩, ⟨_, rfl, hf, h4, fun h => h2 (not_not.mpr h)⟩⟩

/-- Settles O30, by `State.skipIf_spec`. -/
theorem skipsOnTwoRegisters : Obligations.SkipsOnTwoRegisters := by
  unfold Obligations.SkipsOnTwoRegisters
  intro x y g s
  obtain ⟨hf, h4, h2⟩ := s.skipIf_spec (bne_iff_ne (a := s.getV x) (b := s.getV y))
  exact ⟨⟨_, rfl, s.skipIf_spec beq_iff_eq⟩, ⟨_, rfl, hf, h4, fun h => h2 (not_not.mpr h)⟩⟩

/-- Settles O52, by `State.skipIf_spec` where VX names a key. -/
theorem skipsOnAKey : Obligations.SkipsOnAKey := by
  unfold Obligations.SkipsOnAKey
  intro x s hx
  obtain ⟨hf, h4, h2⟩ := s.skipIf_spec (b := s.key (s.getV x).toNat) Iff.rfl
  obtain ⟨hf', h4', h2'⟩ := s.skipIf_spec (b := !s.key (s.getV x).toNat) (Bool.not_eq_true' _).to_iff
  exact ⟨⟨_, exec_skp_in s x hx, hf, h4, fun h => h2 (by simp [h])⟩,
    ⟨_, exec_sknp_in s x hx, hf', h4', fun h => h2' (by simp [h])⟩⟩

end Sys2Proof.Machine
end

section
/-! PROOFS of 41_register_ops.md: the register operations (R92 to R101) and who writes VF (10_state.md R13); of
44_random.md, `RND`; of 47_input.md, `LD Vx, K`. -/

namespace Sys2Proof.Machine

variable {s t : State} {i : Instr}

/-! ## The two ways an instruction writes its results -/

theorem State.getV_setV_self (s : State) (x : Reg) (b : Byte) : (s.setV x b).getV x = b :=
  (s.getV_setV x x b).trans (if_pos rfl)

theorem State.getV_setVFlag_VF (s : State) (x : Reg) (a b : Byte) : (s.setVFlag x a b).getV VF = b :=
  (s.getV_setVFlag x VF a b).trans (if_pos rfl)

theorem State.getV_setVFlag_self (s : State) {x : Reg} (a b : Byte) (hx : x ≠ VF) : (s.setVFlag x a b).getV x = a :=
  (s.getV_setVFlag x x a b).trans ((if_neg hx).trans (if_pos rfl))

/-! ## Results and flags as numbers (41_register_ops.md R90) -/

@[simp] theorem wrapByte_toNat (n : Nat) : (wrapByte n).toNat = n % 256 := BitVec.toNat_ofNat n 8

theorem flagByte_toNat (b : Bool) : (flagByte b).toNat = if b then 1 else 0 := by cases b <;> rfl

theorem flagByte_zero_or_one (b : Bool) : flagByte b = 0 ∨ flagByte b = 1 := by cases b <;> simp [flagByte]

theorem carryFlag_toNat (a b : Byte) : (carryFlag a b).toNat = if a.toNat + b.toNat > 255 then 1 else 0 := by
  simp [carryFlag, flagByte_toNat]

theorem notBorrowFlag_toNat (a b : Byte) : (notBorrowFlag a b).toNat = if a.toNat ≥ b.toNat then 1 else 0 := by
  simp [notBorrowFlag, flagByte_toNat]

theorem diffByte_toNat (a b : Byte) : ((diffByte a b).toNat : Int) = (a.toNat - b.toNat : Int) % 256 := by
  rw [diffByte, wrapByte_toNat]
  split <;> omega

theorem shiftOutRight_toNat (a : Byte) : (shiftOutRight a).toNat = a.toNat % 2 := by
  revert a; decide

theorem shiftOutLeft_toNat (a : Byte) : (shiftOutLeft a).toNat = a.toNat / 128 := by
  revert a; decide

/-! ## Register operations -/

/-- Settles O32: one register write, of the wrapped sum. -/
theorem addImmediateWrapsWithoutFlag : Obligations.AddImmediateWrapsWithoutFlag := by
  unfold Obligations.AddImmediateWrapsWithoutFlag
  intro x nn s
  refine ⟨_, rfl, ?_, rfl, Frame.ofSetV s x _⟩
  rw [State.getV_advance, State.getV_setV_self, wrapByte_toNat]

/-- Settles O33: one register write each, read bit by bit. -/
theorem moveAndLogicWriteOnlyVx : Obligations.MoveAndLogicWriteOnlyVx := by
  unfold Obligations.MoveAndLogicWriteOnlyVx
  intro x y s
  refine ⟨⟨_, rfl, s.getV_setV_self x _, rfl, Frame.ofSetV s x _⟩, ⟨_, rfl, rfl, Frame.ofSetV s x _, fun j => ?_⟩,
    ⟨_, rfl, rfl, Frame.ofSetV s x _, fun j => ?_⟩, ⟨_, rfl, rfl, Frame.ofSetV s x _, fun j => ?_⟩⟩
  · rw [State.getV_advance, State.getV_setV_self, BitVec.getLsbD_or]
  · rw [State.getV_advance, State.getV_setV_self, BitVec.getLsbD_and]
  · rw [State.getV_advance, State.getV_setV_self, BitVec.getLsbD_xor]

/-- What a flag-writing instruction leaves: its result in VX unless X is 15, the flag in VF, `pc` past it. -/
theorem State.setVFlag_spec (s : State) (x : Reg) {a b : Byte} {m k : Nat} (ha : a.toNat = m) (hb : b.toNat = k) :
    (x ≠ VF → ((s.setVFlag x a b).advance.getV x).toNat = m) ∧ ((s.setVFlag x a b).advance.getV VF).toNat = k ∧
      (s.setVFlag x a b).advance.pc = s.pc + 2 ∧
      Frame { regs := [x, VF], pc := true } s (s.setVFlag x a b).advance := by
  refine ⟨fun hx => ?_, ?_, rfl, Frame.ofSetVFlag s x a b⟩
  · rwa [State.getV_advance, State.getV_setVFlag_self s a b hx]
  · rwa [State.getV_advance, State.getV_setVFlag_VF]

/-- Settles O34, by `State.setVFlag_spec` with the wrapped sum and the carry. -/
theorem addSetsCarry : Obligations.AddSetsCarry := by
  unfold Obligations.AddSetsCarry
  intro x y s
  exact ⟨_, rfl, s.setVFlag_spec x (wrapByte_toNat _) (carryFlag_toNat _ _)⟩

/-- Settles O35, by `State.setVFlag_spec` with the difference and the not-borrow. -/
theorem subtractsSetNotBorrow : Obligations.SubtractsSetNotBorrow := by
  unfold Obligations.SubtractsSetNotBorrow
  intro x y s
  obtain ⟨hsub, hrest⟩ := s.setVFlag_spec x (a := diffByte (s.getV x) (s.getV y)) rfl (notBorrowFlag_toNat _ _)
  obtain ⟨hsubn, hrest'⟩ := s.setVFlag_spec x (a := diffByte (s.getV y) (s.getV x)) rfl (notBorrowFlag_toNat _ _)
  exact ⟨⟨_, rfl, fun hx => (congrArg Nat.cast (hsub hx)).trans (diffByte_toNat _ _), hrest⟩,
    ⟨_, rfl, fun hx => (congrArg Nat.cast (hsubn hx)).trans (diffByte_toNat _ _), hrest'⟩⟩

/-- Settles O36, by `State.setVFlag_spec` with the shifted value and the bit shifted out. -/
theorem shiftsCaptureTheBitShiftedOut : Obligations.ShiftsCaptureTheBitShiftedOut := by
  unfold Obligations.ShiftsCaptureTheBitShiftedOut
  intro x g s
  have hhalf : (wrapByte ((s.getV x).toNat / 2)).toNat = (s.getV x).toNat / 2 := by
    rw [wrapByte_toNat]
    omega
  exact ⟨⟨_, rfl, s.setVFlag_spec x hhalf (shiftOutRight_toNat _)⟩,
    ⟨_, rfl, s.setVFlag_spec x (wrapByte_toNat _) (shiftOutLeft_toNat _)⟩⟩

/-! ## Who writes VF (10_state.md R13) -/

theorem writesFlag_or_destination_of_changes (h : VF ∈ (changesOf i s).regs) :
    writesFlag i = true ∨ destination i = some VF := by
  cases i with
  | addVxVy | subVxVy | shrVx | subnVxVy | shlVx | drwVxVyNibble => exact .inl rfl
  | ldVxByte | addVxByte | ldVxVy | orVxVy | andVxVy | xorVxVy | rndVxByte | ldVxDt | ldVxK =>
    exact .inr (congrArg some (List.mem_singleton.mp h).symm)
  | ldVxMemI x =>
    obtain ⟨-, hx⟩ := List.mem_filter.mp h
    exact absurd (of_decide_eq_true hx) (Nat.not_lt.mpr (Nat.le_of_lt_succ x.isLt))
  | _ => contradiction

/-- What a flag-writing instruction that does not fault leaves in VF is a flag. -/
theorem exec_flag (hw : writesFlag i = true) (hf : faultOf i s = none) (h : exec i s = .next t) :
    ∃ b, t.getV VF = flagByte b := by
  cases i with
  | addVxVy | subVxVy | shrVx | subnVxVy | shlVx =>
    cases h
    exact ⟨_, State.getV_setVFlag_VF ..⟩
  | drwVxVyNibble x y n =>
    cases h.symm.trans (exec_drw_in s x y n (dataRangeOf_eq_none_iff.mp hf))
    exact ⟨_, State.getV_setV_self ..⟩
  | _ => contradiction

/-- Settles O37: who writes VF by the frame of the instruction, what by `exec_flag`. -/
theorem vfWrittenAsFlagOrDestination : Obligations.VfWrittenAsFlagOrDestination := by
  unfold Obligations.VfWrittenAsFlagOrDestination
  intro i s t h
  refine ⟨fun hne => ?_, fun hw hf => ?_⟩
  · rcases exec_frame_of_eq s h with ⟨c, ir, info, rfl⟩ | hframe
    · exact absurd rfl hne
    · exact writesFlag_or_destination_of_changes (of_not_not (mt (hframe.regs VF) hne))
  · obtain ⟨b, hb⟩ := exec_flag hw hf h
    rw [hb]
    exact flagByte_zero_or_one b

/-! ## `RND` and `LD Vx, K` -/

/-- Settles O45: one register write, read bit by bit. -/
theorem randomByteIsMasked : Obligations.RandomByteIsMasked := by
  unfold Obligations.RandomByteIsMasked
  intro x nn s
  refine ⟨_, rfl, fun j => ?_, rfl, Frame.ofSetV s x _⟩
  rw [State.getV_advance, State.getV_setV_self, BitVec.getLsbD_and]

/-- Settles O53: the function is `keyPick`, which gives a pressed key. -/
theorem keyWaitPollsThenTakesAPressedKey : Obligations.KeyWaitPollsThenTakesAPressedKey := by
  unfold Obligations.KeyWaitPollsThenTakesAPressedKey
  refine ⟨keyPick, fun x s => ⟨exec_ldVxK_wait s x, fun hk => ⟨keyPick_pressed hk, ?_⟩⟩⟩
  refine ⟨_, exec_ldVxK_take s x hk, ?_, rfl, Frame.ofSetV s x _⟩
  rw [State.getV_advance, State.getV_setV_self, BitVec.toNat_ofNat]
  omega

end Sys2Proof.Machine
end

section
/-! PROOFS of 42_index_ops.md and 43_block_transfer.md: the index operations (R106 to R108), the block transfers (R113,
R114), and that a fetch sees stored bytes (20_memory.md R50). -/

namespace Sys2Proof.Machine

variable {s t : State}

/-! ## Writes of `I` -/

theorem zextByte_toNat (b : Byte) : (zextByte b).toNat = b.toNat := BitVec.toNat_setWidth_of_le (by decide)

theorem glyphAddr_toNat (b : Byte) : (glyphAddr b).toNat = 0x050 + 5 * (b.toNat % 16) := by
  rw [glyphAddr, BitVec.toNat_ofNat]
  simp only [Config.fontBase, Config.glyphBytes]
  omega

/-- Settles O39: the sum of two words, one of them zero-extended. -/
theorem addIndexWrapsAt65536 : Obligations.AddIndexWrapsAt65536 := by
  unfold Obligations.AddIndexWrapsAt65536
  intro x s
  refine ⟨_, rfl, ?_, rfl, Frame.ofSetI s _⟩
  rw [State.advance_i, State.setI_i, BitVec.toNat_add, zextByte_toNat]

/-- Settles O40, by `glyphAddr_toNat`. -/
theorem loadGlyphAddress : Obligations.LoadGlyphAddress := by
  unfold Obligations.LoadGlyphAddress
  intro x s
  have hi := glyphAddr_toNat (s.getV x)
  refine ⟨_, rfl, hi, ?_, ?_, rfl, Frame.ofSetI s _⟩
  · rw [State.advance_i, State.setI_i, hi]
    omega
  · rw [State.advance_i, State.setI_i, hi]
    omega

/-! ## Stores from `I` up -/

theorem State.badDataAddr_of_inRange {n : Nat} (h : s.inRange n) : s.badDataAddr n = none :=
  (s.badDataAddr_eq_none n).mpr h

theorem State.readByte_storeBytes_dataAddr (s : State) (bs : List Byte) {k : Nat} (hk : k < bs.length) :
    (s.storeBytes bs).advance.readByte (s.dataAddr k) = bs.getD k 0 := by
  show (s.storeBytes bs).readByte _ = _
  rw [State.readByte_storeBytes, State.dataAddr, if_pos (by omega), Nat.add_sub_cancel_left]

/-- Settles O41: the three stored bytes are the digits, each below 256. -/
theorem storeDecimalDigits : Obligations.StoreDecimalDigits := by
  unfold Obligations.StoreDecimalDigits
  intro x s h
  have hv := (s.getV x).isLt
  have digit (k : Nat) (hk : k < 3) := s.readByte_storeBytes_dataAddr (decimalDigits (s.getV x)) hk
  refine ⟨_, exec_ldBVx_in s x (State.badDataAddr_of_inRange h), ?_, ?_, ?_, rfl, Frame.ofStoreBytes s _ 3 rfl⟩
  · rw [digit 0 (by decide)]
    exact (BitVec.toNat_ofNat ..).trans (by omega)
  · rw [digit 1 (by decide)]
    exact (BitVec.toNat_ofNat ..).trans (by omega)
  · rw [digit 2 (by decide)]
    exact (BitVec.toNat_ofNat ..).trans (by omega)

/-- Settles O42: the stored bytes are the low registers. -/
theorem storeRegistersExcludesVx : Obligations.StoreRegistersExcludesVx := by
  unfold Obligations.StoreRegistersExcludesVx
  intro x s h
  refine ⟨_, exec_ldMemIVx_in s x (State.badDataAddr_of_inRange h), fun k hk => ?_, rfl,
    Frame.ofStoreBytes s _ x.val (s.length_lowRegs x)⟩
  rw [State.readByte_storeBytes_dataAddr s _ (by rwa [s.length_lowRegs x]), s.getD_lowRegs x k.val hk]

/-! ## Loads from `I` up -/

@[simp] theorem State.loadRegs_pc (s : State) (bs : List Byte) : (s.loadRegs bs).pc = s.pc := State.setRegs_pc s _

theorem State.getV_loadRegs_dataBytes (s : State) (n : Nat) (k : Reg) :
    (s.loadRegs (s.dataBytes n)).advance.getV k = if k.val < n then s.readByte (s.dataAddr k.val) else s.getV k := by
  rw [State.getV_advance, State.getV_loadRegs, State.getD_dataBytes]

/-- Settles O43: a register below X is the byte read for it, the others are kept. -/
theorem loadRegistersExcludesVx : Obligations.LoadRegistersExcludesVx := by
  unfold Obligations.LoadRegistersExcludesVx
  intro x s h
  refine ⟨_, exec_ldVxMemI_in s x (State.badDataAddr_of_inRange h), fun k hk => ?_, fun k hk => ?_, by simp,
    Frame.ofLoadRegs s x.val⟩
  · rw [State.getV_loadRegs_dataBytes, if_pos hk]
  · rw [State.getV_loadRegs_dataBytes, if_neg (Nat.not_lt.mpr hk)]

/-! ## A fetch after a store -/

/-- A byte that is the stored register where its address is stored to, and the byte as before where it is not, is the
byte after `LD [I], Vx`. -/
theorem readByte_of_store {x : Reg} {a : Nat} {b : Byte} (h : s.inRange x.val) (he : exec (.ldMemIVx x) s = .next t)
    (hnew : ∀ k : Reg, k.val < x.val → s.dataAddr k.val = a → b = s.getV k)
    (hold : a ∉ s.dataAddrs x.val → b = s.readByte a) : t.readByte a = b := by
  obtain ⟨t', he', hstored, -, hf⟩ := storeRegistersExcludesVx x s h
  cases he.symm.trans he'
  by_cases ha : a ∈ s.dataAddrs x.val
  · obtain ⟨k, hk, rfl⟩ := List.mem_map.mp ha
    have hkx : k < x.val := List.mem_range.mp hk
    have hk16 : k < 16 := by omega
    exact (hstored ⟨k, hk16⟩ hkx).trans (hnew ⟨k, hk16⟩ hkx rfl).symm
  · exact (hf.bytes a ha).trans (hold ha).symm

/-- Settles O44: the fetch joins two bytes, each as `readByte_of_store` says. -/
theorem storedBytesAreFetched : Obligations.StoredBytesAreFetched := by
  unfold Obligations.StoredBytesAreFetched
  intro x s t a h he ha
  refine ⟨_, State.fetch_eq_some (t.setPc a) ha, fun hi lo hhi hhi' hlo hlo' => ?_⟩
  have h1 : t.readByte a.toNat = hi := readByte_of_store h he hhi hhi'
  have h2 : t.readByte (a.toNat + 1) = lo := readByte_of_store h he hlo hlo'
  rw [← h1, ← h2]
  exact wordOfBytes_toNat _ _

end Sys2Proof.Machine
end

section
/-! PROOFS of 45_display.md: `DRW` pixel by pixel (R120), and the law of two draws (R122). -/

namespace Sys2Proof.Machine

variable {s t u : State} {x y : Reg} {n : Nibble}

/-- What a draw writes: the frame buffer, VF, `redraw` and `pc`. -/
theorem Frame.ofDraw (s : State) (f : FrameBuffer) (b : Byte) :
    Frame { regs := [VF], pc := true, fb := true, redraw := true } s
      (((s.setFb f).setV VF b).setRedraw true).advance := by
  constructor
  case regs =>
    intro r hr
    exact (State.getV_setV _ VF r b).trans (if_neg (by simpa using hr))
  case pc | fb | redraw => nofun
  all_goals intros; rfl

/-- `DRW` in range, in terms of the cells the sprite covers: the canvas its loops leave, from `drawRows_spec`. -/
theorem exec_drw_spec (h : s.inRange n.toNat) : ∃ p : Canvas,
    exec (.drwVxVyNibble x y n) s = .next (((s.setFb p.1).setV VF (flagByte p.2)).setRedraw true).advance ∧
    (∀ py px, s.spriteCovers x y n py px → p.1.pixel py px = !s.fb.pixel py px) ∧
    (∀ py px, ¬s.spriteCovers x y n py px → p.1.pixel py px = s.fb.pixel py px) ∧
    (p.2 = true ↔ ∃ py px, s.spriteCovers x y n py px ∧ s.lit py px) := by
  have he := exec_drw_in s x y n (State.badDataAddr_of_inRange h)
  have hlen : 0 + (s.dataBytes n.toNat).length ≤ 32 := by
    rw [State.length_dataBytes]
    omega
  obtain ⟨hpixel, hflag⟩ := drawRows_spec (s.getV x) (s.getV y) (s.dataBytes n.toNat) 0 (s.fb, false) hlen
  generalize drawRows (s.getV x) (s.getV y) 0 (s.dataBytes n.toNat) (s.fb, false) = p at he hpixel hflag
  refine ⟨p, he, fun py px hc => ?_, fun py px hc => ?_, ?_⟩
  · simp only [hpixel, (s.spriteCovers_iff x y n py px).mp hc, decide_true, Bool.xor_true]
  · simp only [hpixel, mt (s.spriteCovers_iff x y n py px).mpr hc, decide_false, Bool.xor_false]
  · simpa [State.lit, State.spriteCovers_iff] using hflag

/-- Settles O46, from the canvas of `exec_drw_spec`. -/
theorem drawTogglesTheSpriteCells : Obligations.DrawTogglesTheSpriteCells := by
  unfold Obligations.DrawTogglesTheSpriteCells
  intro x y n s h
  obtain ⟨p, he, hon, hoff, hflag⟩ := exec_drw_spec h
  have hVF : (((s.setFb p.1).setV VF (flagByte p.2)).setRedraw true).advance.getV VF = flagByte p.2 :=
    State.getV_setV_self ..
  refine ⟨_, he, fun py px => ⟨fun hc => ?_, fun hc => ?_⟩, fun hc => ?_, fun hc => ?_, rfl, rfl, Frame.ofDraw s _ _⟩
  · show p.1.pixel py px = true ↔ _
    rw [hon py px hc, State.lit, Bool.not_eq_true', Bool.not_eq_true]
  · show p.1.pixel py px = true ↔ _
    rw [hoff py px hc, State.lit]
  · rw [hVF, hflag.mpr hc]
    rfl
  · rw [hVF, Bool.eq_false_iff.mpr (mt hflag.mp hc)]
    rfl

/-- The cells a sprite covers depend on its bytes, on `I` and on the two coordinate registers. -/
theorem State.spriteCovers_congr (hx : t.getV x = s.getV x) (hy : t.getV y = s.getV y) (hi : t.i = s.i)
    (hbytes : ∀ a, t.readByte a = s.readByte a) (py : Fin 32) (px : Fin 64) :
    t.spriteCovers x y n py px ↔ s.spriteCovers x y n py px := by
  simp only [State.spriteCovers, hx, hy, hi, hbytes]

/-- Settles O47: both draws cover the same cells, so that the second toggles back what the first toggled, and finds a
cell lit exactly where the first found it off. -/
theorem doubleDrawRestoresTheFrame : Obligations.DoubleDrawRestoresTheFrame := by
  unfold Obligations.DoubleDrawRestoresTheFrame
  intro x y n s t u h hst htu hx hy
  obtain ⟨t', ht', hcells, -, -, -, -, hf⟩ := drawTogglesTheSpriteCells x y n s h
  cases hst.symm.trans ht'
  have hi : t.i = s.i := hf.i rfl
  have hcov := State.spriteCovers_congr (n := n) hx hy hi fun a => hf.bytes a List.not_mem_nil
  have ht : t.inRange n.toNat := by simpa only [State.inRange, State.dataAddr, hi] using h
  obtain ⟨u', hu', hcells', hone, hzero, -⟩ := drawTogglesTheSpriteCells x y n t ht
  cases htu.symm.trans hu'
  simp only [hcov] at hcells' hone hzero
  have hlit (py : Fin 32) (px : Fin 64) (hc : s.spriteCovers x y n py px) : t.lit py px ↔ ¬s.lit py px :=
    (hcells py px).1 hc
  refine ⟨FrameBuffer.ext_pixel fun py px => Bool.eq_iff_iff.mpr ?_, fun hv => ?_, fun ⟨py, px, hc, hs⟩ => ?_⟩
  · show u.lit py px ↔ s.lit py px
    by_cases hc : s.spriteCovers x y n py px
    · rw [(hcells' py px).1 hc, hlit py px hc, not_not]
    · rw [(hcells' py px).2 hc, (hcells py px).2 hc]
  · by_contra hno
    have h0 : u.getV VF = 0 := hzero fun ⟨py, px, hc, ht⟩ => hno ⟨py, px, hc, (hlit py px hc).mp ht⟩
    rw [h0] at hv
    exact absurd hv (by decide)
  · exact hone ⟨py, px, hc, (hlit py px hc).mpr hs⟩

end Sys2Proof.Machine
end
